-- ==== Sys2Proof/Word.lean ====
section
/-! DEFINITION. The words the codec works on (spec 10_state.md rules R22 to R24, 00_scope.md section 5).
Wire `i` of a word is bit `i` of the vector, so position `p` of a codeword is `w.getLsbD p` (rule R32). -/

namespace Sys2Proof

/-- The pre-encoding payload: 11 bits, data index 0..10 (rule R22). -/
abbrev DataWord := BitVec 11

/-- The 16-bit transmitted unit, position 0..15 (rule R23).  Every value is well formed; only 2048 are valid
codewords (rule R50). -/
abbrev Codeword := BitVec 16

/-- The syndrome, an unsigned number 0..15 in 4 bits; it is also a codeword position (rule R24). -/
abbrev Syndrome := BitVec 4

/-- The four Hamming parity bits: bit `j` is `P[j]`, the bit of position `2^j` (rule R18). -/
abbrev HammingParity := BitVec 4

/-- A codeword position carried on a 4-wire net (rules R84, R113). -/
abbrev Position := BitVec 4

end Sys2Proof
end

