-- ==== Sys2Proof/Config.lean ====
section
/-! DEFINITION. The code parameters, fixed for the lifetime of the system (spec 00_scope.md rule R2 and section 4).
The spec leaves no parameter open, so there is no free value here. -/

namespace Sys2Proof.Config

/-- N, the codeword length (rule R2). -/
def codewordLength : Nat := 16

/-- K, the data length (rule R2). -/
def dataLength : Nat := 11

/-- NH, the number of Hamming parity bits (rule R2).  The overall parity bit is the fifth parity bit. -/
def hammingCount : Nat := 4

end Sys2Proof.Config
end

