-- ==== Sys2Proof/Machine/Operands.lean ====
section
/-! DEFINITION. Operand forms: the packing of a sequence onto wires (spec 20_memory.md rule R32, 30_encoding.md rules
R40, R41: wire `i` carries index `i`), one-bit writes, and the XOR over a set of bits (00_scope.md section 5). -/

namespace Sys2Proof.Machine

/-- The bits of a word as a sequence, index 0 first. -/
def bitsOf {n : Nat} (w : BitVec n) : List Bool :=
  (List.range n).map w.getLsbD

/-- The number whose bit `i` is element `i` of the sequence. -/
def natOfBits : List Bool → Nat
  | [] => 0
  | b :: bs => b.toNat + 2 * natOfBits bs

/-- The `n`-wire word whose wire `i` carries element `i` of the sequence. -/
def ofBits (n : Nat) (bits : List Bool) : BitVec n :=
  BitVec.ofNat n (natOfBits bits)

/-- `XOR{ e : e in list }`; over the empty list it is 0. -/
def xorBits (bits : List Bool) : Bool :=
  bits.foldl (fun acc b => acc ^^ b) false

/-- `w with [p] := v` (00_scope.md section 5): position `p` holds `v`, every other position is as in `w`. -/
def setPos (w : Codeword) (p : Nat) (v : Bool) : Codeword :=
  (w &&& ~~~(1#16 <<< p)) ||| (if v then 1#16 <<< p else 0#16)

end Sys2Proof.Machine
end

