-- ==== Sys2Proof/Syntax.lean ====
section
/-! DEFINITION. The operations: one constructor for each row of spec/opcode_table.json, and the units that select them.
ENCODE and DECODE are the two operations of the core and take a SEQUENCE of bits of any length, index 0 first, because
their interface rejects a wrong length with `InvalidLength` (spec 60_exceptions.md rules R110, R111); the nine steps take
the fixed-width words of their sub-unit's wires (30_encoding.md rule R45). -/

namespace Sys2Proof

/-- Which block or sub-unit an operand is presented to.  There is no opcode field: the operation is selected by the
block (rule R44), and a step by its sub-unit (rule R45). -/
inductive Target where
  | encode | place | hpar | opar | assemble
  | decode | syndrome | blockpar | locate | flip | extract
  deriving DecidableEq, Repr

/-- One evaluation of one block or sub-unit on one operand. -/
inductive Instr where
  /-- ENCODE of a sequence of bits (rules R60, R110). -/
  | encode (seq : List Bool)
  /-- PLACE: the placement wiring (rule R61). -/
  | place (d : DataWord)
  /-- HPAR: the four parity trees (rule R62). -/
  | hpar (placed : Codeword)
  /-- OPAR: the overall parity tree (rule R63). -/
  | opar (placed : Codeword) (parity : HammingParity)
  /-- ASSEMBLE: the output wiring (rule R64). -/
  | assemble (placed : Codeword) (parity : HammingParity) (overall : Bool)
  /-- DECODE of a sequence of bits (rules R80, R111). -/
  | decode (seq : List Bool)
  /-- SYNDROME: the syndrome generator's position XOR (rule R81). -/
  | syndrome (r : Codeword)
  /-- BLOCKPAR: the syndrome generator's block parity (rule R83). -/
  | blockpar (r : Codeword)
  /-- LOCATE: the error locator (rule R84). -/
  | locate (S : Syndrome) (B : Bool)
  /-- FLIP: the bit-flip unit (rule R85). -/
  | flip (r : Codeword) (flipEn : Bool) (pos : Position)
  /-- EXTRACT: the data extractor (rule R86). -/
  | extract (w : Codeword)
  deriving DecidableEq, Repr

end Sys2Proof
end

