-- ==== Sys2Proof/WellFormed.lean ====
section
/-! DEFINITION. Which operands are operands at all: the exact length that stands in place of alignment
(spec 20_memory.md rule R33).  Every bit pattern of the right length is legal (30_encoding.md rule R46); the steps'
operands have their widths by typing. -/

namespace Sys2Proof

/-- The operand of ENCODE has exactly 11 bits and that of DECODE exactly 16 (rule R33). -/
abbrev Instr.WellFormed : Instr → Prop
  | .encode seq => seq.length = Config.dataLength
  | .decode seq => seq.length = Config.codewordLength
  | .place _ | .hpar _ | .opar _ _ | .assemble _ _ _ => True
  | .syndrome _ | .blockpar _ | .locate _ _ | .flip _ _ _ | .extract _ => True

end Sys2Proof
end

