-- ==== Sys2Proof/Decode.lean ====
section
/-! DEFINITION. From the bits presented to a block or sub-unit to the instruction, total on every sequence and rejecting
by name, and back (spec 30_encoding.md sections 1 to 4).  No bit of a word selects an operation (every `match` and `mask`
of the table is 0): the target does (rule R44).  Where a step has operands beside its input word, they follow the word:
`P[0..3]` and then `OP`, or `flip_en` and then `pos[0..3]` (DESIGN CHOICE, notes/assumptions/5.md). -/

namespace Sys2Proof

/-- Why a sequence is no operand of a target. -/
inductive DecodeError where
  /-- the target's wires are `required` and the sequence has another length -/
  | wrongWidth (target : Target) (required : Nat)
  deriving DecidableEq, Repr

/-- How many bits a target's operand has (rules R40, R41, R45 and the table's widths). -/
def Target.width : Target → Nat
  | .encode | .place => 11
  | .hpar | .decode | .syndrome | .blockpar | .extract => 16
  | .opar => 20
  | .assemble | .flip => 21
  | .locate => 5

/-- The instruction that a target's wires carry, bit `i` of `bits` on wire `i`, for the nine fixed-width targets.
LOCATE's operand has `B` in bit 0 and `S` in bits 4..1. -/
def decodeWires (target : Target) (bits : List Bool) : Instr :=
  match target with
  | .encode => .encode bits
  | .place => .place (Machine.ofBits 11 bits)
  | .hpar => .hpar (Machine.ofBits 16 bits)
  | .opar => .opar (Machine.ofBits 16 bits) (Machine.ofBits 4 (bits.drop 16))
  | .assemble =>
    .assemble (Machine.ofBits 16 bits) (Machine.ofBits 4 (bits.drop 16)) (bits.getD 20 false)
  | .decode => .decode bits
  | .syndrome => .syndrome (Machine.ofBits 16 bits)
  | .blockpar => .blockpar (Machine.ofBits 16 bits)
  | .locate => .locate (Machine.ofBits 4 (bits.drop 1)) (bits.getD 0 false)
  | .flip => .flip (Machine.ofBits 16 bits) (bits.getD 16 false) (Machine.ofBits 4 (bits.drop 17))
  | .extract => .extract (Machine.ofBits 16 bits)

/-- The decoder.  The two operations take a sequence of any length, since their own length check answers a wrong one
(rules R110, R111); a sub-unit has fixed wires and takes exactly as many bits (rule R33). -/
def decode (target : Target) (bits : List Bool) : Except DecodeError Instr :=
  match target with
  | .encode | .decode => .ok (decodeWires target bits)
  | .place | .hpar | .opar | .assemble | .syndrome | .blockpar | .locate | .flip | .extract =>
    if bits.length = target.width then .ok (decodeWires target bits)
    else .error (.wrongWidth target target.width)

/-- The encoder: the target that selects an instruction and the bits on its wires. -/
def encode : Instr → Target × List Bool
  | .encode seq => (.encode, seq)
  | .place d => (.place, Machine.bitsOf d)
  | .hpar placed => (.hpar, Machine.bitsOf placed)
  | .opar placed parity => (.opar, Machine.bitsOf placed ++ Machine.bitsOf parity)
  | .assemble placed parity overall =>
    (.assemble, Machine.bitsOf placed ++ Machine.bitsOf parity ++ [overall])
  | .decode seq => (.decode, seq)
  | .syndrome r => (.syndrome, Machine.bitsOf r)
  | .blockpar r => (.blockpar, Machine.bitsOf r)
  | .locate S B => (.locate, B :: Machine.bitsOf S)
  | .flip r flipEn pos => (.flip, Machine.bitsOf r ++ flipEn :: Machine.bitsOf pos)
  | .extract w => (.extract, Machine.bitsOf w)

/-- The target that a bare word of spec/opcode_table.json is presented to.  No bit of it selects an operation, so the
first row of the table whose width and fixed bits the word meets is taken: 8 bits hold LOCATE's 5; 16 bits with bits
15..11 zero hold ENCODE's 11; 16 bits with the parity positions zero are the placed word of HPAR; any other word is a
codeword for DECODE (DESIGN CHOICE, notes/assumptions/6.md). -/
def tableTarget (nbits w : Nat) : Target :=
  if nbits ≤ 8 then .locate
  else if w < 2 ^ 11 then .encode
  else if w &&& 0x0117 = 0 then .hpar
  else .decode

/-- The bits of a table word on its target's wires, bits above the word 0. -/
def tableBits (nbits w : Nat) : List Bool :=
  (List.range (tableTarget nbits w).width).map (fun i => decide (i < nbits) && w.testBit i)

/-- The instruction that the decoder reads from a word of spec/opcode_table.json. -/
def decodeTableWord (nbits w : Nat) : Option Instr :=
  (decode (tableTarget nbits w) (tableBits nbits w)).toOption

end Sys2Proof
end

