-- ==== Sys2Proof/Machine/Channel.lean ====
section
/-! DEFINITION. The channel between an encoder and a decoder, an agent outside the core (spec 20_memory.md rule R38), and
the test bench's INJECT (30_encoding.md rule R49). -/

namespace Sys2Proof.Machine

/-- The received word: the sent word with the positions set in the error pattern inverted (rule R38). -/
def channel (c e : Codeword) : Codeword :=
  c ^^^ e

/-- INJECT: the listed positions inverted one after another (rule R49). -/
def inject (c : Codeword) (ps : List Nat) : Codeword :=
  ps.foldl (fun w p => setPos w p (!w.getLsbD p)) c

/-- `weight(e)`: how many positions the pattern sets (00_scope.md section 5). -/
def weight (e : Codeword) : Nat :=
  (List.range Config.codewordLength).countP (fun p => e.getLsbD p)

end Sys2Proof.Machine
end

