-- ==== Sys2Proof/Machine/Layout.lean ====
section
/-! DEFINITION. The layout table, the single source of truth of the encoder and the decoder (spec 10_state.md rules R18
to R21).  DPOS, PPOS and OPOS are READ from the one table, so the two blocks cannot drift apart (rule R21). -/

namespace Sys2Proof.Machine

/-- The role of a codeword position (rule R18). -/
inductive Role where
  /-- the overall (extended) parity bit, OP -/
  | overall
  /-- Hamming parity bit `P[j]` -/
  | hamming (j : Nat)
  /-- data bit `d[i]` -/
  | data (i : Nat)
  deriving DecidableEq, Repr

/-- The layout table: the role of positions 0 to 15 in order (rule R18; the ascending data order is decision D2). -/
def layoutTable : List Role :=
  [.overall, .hamming 0, .hamming 1, .data 0, .hamming 2, .data 1, .data 2, .data 3,
   .hamming 3, .data 4, .data 5, .data 6, .data 7, .data 8, .data 9, .data 10]

/-- The position that holds a role. -/
def positionOf (role : Role) : Nat :=
  layoutTable.idxOf role

/-- `DPOS[i]`, the position of data bit `i`. -/
def dpos (i : Nat) : Nat :=
  positionOf (.data i)

/-- `PPOS[j]`, the position of Hamming parity bit `j`. -/
def ppos (j : Nat) : Nat :=
  positionOf (.hamming j)

/-- `OPOS`, the position of the overall parity bit. -/
def opos : Nat :=
  positionOf .overall

/-- All positions of a codeword, 0 to 15. -/
def positions : List Nat :=
  List.range Config.codewordLength

/-- The covering group `G[j]`: the positions whose index has bit `j` set (rule R19). -/
def group (j : Nat) : List Nat :=
  positions.filter (fun p => p.testBit j)

end Sys2Proof.Machine
end

