-- ==== Sys2Proof/Machine/State.lean ====
section
/-! DEFINITION. What the machine holds.  The hardware has no storage element (spec 10_state.md rules R10 to R14): what
State holds is the LEVEL on every port and every internal net of one encoder and one decoder (rules R15 to R17), the
same for one stand-alone instance of each named step (30_encoding.md rule R45), and, outside the core, what the driver
and the channel have (60_exceptions.md rule R124, 20_memory.md rule R38). -/

namespace Sys2Proof.Machine

/-- The three tags of a DecodeOutcome (rule R25). -/
inductive OutcomeTag where
  | clean | corrected | doubleErrorDetected
  deriving DecidableEq, Repr

/-- The tagged result of DECODE with its payload (rules R25, R87). -/
inductive DecodeOutcome where
  /-- no error detected -/
  | clean (dataWord : DataWord)
  /-- one bit was inverted -/
  | corrected (position : Position) (correctedCodeword : Codeword) (dataWord : DataWord)
  /-- uncorrectable, no payload -/
  | doubleErrorDetected
  deriving DecidableEq, Repr

/-- What the error locator decides: the tag, the flip enable and the position (rule R84). -/
structure Located where
  tag    : OutcomeTag
  flipEn : Bool
  pos    : Position
  deriving DecidableEq, Repr

/-- What a call of one of the two operations returns to its caller (rule R44). -/
inductive CallResult where
  /-- ENCODE returned a codeword -/
  | codeword (c : Codeword)
  /-- DECODE returned an outcome -/
  | decoded (o : DecodeOutcome)
  /-- the call failed with `InvalidLength`, reporting the required length (rules R110, R111) -/
  | invalidLength (required : Nat)
  deriving DecidableEq, Repr

/-- What the driver presents next (rule R124). -/
inductive Request where
  /-- a sequence of bits, index 0 first, presented to a block or sub-unit -/
  | call (target : Target) (operand : List Bool)
  /-- the channel carries the word on `codeword_out` to the decoder, inverting the positions set in `e` (rule R38) -/
  | relay (e : Codeword)
  deriving DecidableEq, Repr

/-- Ports and nets of the block `hamming_secded_encoder` (rules R15, R17). -/
structure EncoderBlock where
  dataIn        : DataWord
  placed        : Codeword
  hammingParity : HammingParity
  overallParity : Bool
  codewordOut   : Codeword
  deriving DecidableEq, Repr

/-- Ports and nets of the block `hamming_secded_decoder` (rules R16, R17).  `syndrome` is also the net `S`,
`blockParity` the net `B`, `codewordCorrected` the net `fixed`: one wire each, held once. -/
structure DecoderBlock where
  codewordIn        : Codeword
  syndrome          : Syndrome
  blockParity       : Bool
  tag               : OutcomeTag
  flipEn            : Bool
  pos               : Position
  flipMask          : Codeword
  status            : BitVec 2
  errPos            : Position
  codewordCorrected : Codeword
  dataOut           : DataWord
  dataValid         : Bool
  deriving DecidableEq, Repr

/-- A placement wiring standing alone (PLACE, rule R61). -/
structure PlaceUnit where
  d      : DataWord
  placed : Codeword
  deriving DecidableEq, Repr

/-- Four parity trees standing alone (HPAR, rule R62). -/
structure HparUnit where
  placed : Codeword
  parity : HammingParity
  deriving DecidableEq, Repr

/-- An overall parity tree standing alone (OPAR, rule R63). -/
structure OparUnit where
  placed  : Codeword
  parity  : HammingParity
  overall : Bool
  deriving DecidableEq, Repr

/-- An output wiring standing alone (ASSEMBLE, rule R64). -/
structure AssembleUnit where
  placed   : Codeword
  parity   : HammingParity
  overall  : Bool
  codeword : Codeword
  deriving DecidableEq, Repr

/-- A syndrome generator standing alone, its output `S` (SYNDROME, rule R81). -/
structure SyndromeUnit where
  r : Codeword
  S : Syndrome
  deriving DecidableEq, Repr

/-- A syndrome generator standing alone, its output `B` (BLOCKPAR, rule R83). -/
structure BlockparUnit where
  r : Codeword
  B : Bool
  deriving DecidableEq, Repr

/-- An error locator standing alone (LOCATE, rule R84) with the three ports it drives (rule R16). -/
structure LocateUnit where
  S         : Syndrome
  B         : Bool
  tag       : OutcomeTag
  flipEn    : Bool
  pos       : Position
  status    : BitVec 2
  errPos    : Position
  dataValid : Bool
  deriving DecidableEq, Repr

/-- A bit-flip unit standing alone (FLIP, rule R85). -/
structure FlipUnit where
  r        : Codeword
  flipEn   : Bool
  pos      : Position
  flipMask : Codeword
  fixed    : Codeword
  deriving DecidableEq, Repr

/-- A data extractor standing alone (EXTRACT, rule R86). -/
structure ExtractUnit where
  w : Codeword
  d : DataWord
  deriving DecidableEq, Repr

/-- The bench: one stand-alone instance of each named step's sub-unit (rule R45). -/
structure Bench where
  placeUnit    : PlaceUnit
  hparUnit     : HparUnit
  oparUnit     : OparUnit
  assembleUnit : AssembleUnit
  syndromeUnit : SyndromeUnit
  blockparUnit : BlockparUnit
  locateUnit   : LocateUnit
  flipUnit     : FlipUnit
  extractUnit  : ExtractUnit
  deriving DecidableEq, Repr

/-- The machine and what stands around it.
`callResult` and `pending` belong to the driver, not to the core (notes/assumptions 2 and 3). -/
structure State where
  /-- the levels on one encoder block -/
  encoder    : EncoderBlock
  /-- the levels on one decoder block -/
  decoder    : DecoderBlock
  /-- the levels on the stand-alone sub-units -/
  bench      : Bench
  /-- what the driver's latest call of ENCODE or DECODE returned; none before the first call -/
  callResult : Option CallResult
  /-- what the driver will present, oldest first -/
  pending    : List Request
  deriving DecidableEq, Repr

/-- What stops the machine. -/
inductive Fault where
  /-- A non-zero syndrome used as a flip position lies outside 1..15 (rule R113).  Raised by DECODE and LOCATE before the
  bit is flipped; unreachable, since the position is a 4-bit net.  Safe: no state is invented. -/
  | internalConsistencyFault
  deriving DecidableEq, Repr

/-- What the model gives no meaning. -/
inductive Refusal where
  /-- An instruction whose arm in exec has no meaning yet.  Safe.  Raised by no arm of this model. -/
  | notModelled (mnemonic : String)
  /-- The driver presented a sequence to the fixed wires of a sub-unit that are not as many: no operand at all, since a
  wrong length cannot be expressed at fixed-width ports (rule R33).  Raised by step when the decoder rejects.  Safe. -/
  | wrongOperandWidth (target : Target) (required : Nat)
  deriving DecidableEq, Repr

/-- The machine before any call.  The hardware has no reset and no reset value (rules R27, R130): every INPUT is taken
as all zeros (DESIGN CHOICE, notes/assumptions/1.md) and every OUTPUT is what its rule gives for that input (rule R131).
Nothing is pending and nothing was returned. -/
def State.reset : State where
  encoder := ⟨0#11, 0#16, 0#4, false, 0#16⟩
  decoder := ⟨0#16, 0#4, false, .clean, false, 0#4, 0#16, 0#2, 0#4, 0#16, 0#11, true⟩
  bench :=
    { placeUnit    := ⟨0#11, 0#16⟩
      hparUnit     := ⟨0#16, 0#4⟩
      oparUnit     := ⟨0#16, 0#4, false⟩
      assembleUnit := ⟨0#16, 0#4, false, 0#16⟩
      syndromeUnit := ⟨0#16, 0#4⟩
      blockparUnit := ⟨0#16, false⟩
      locateUnit   := ⟨0#4, false, .clean, false, 0#4, 0#2, 0#4, true⟩
      flipUnit     := ⟨0#16, false, 0#4, 0#16, 0#16⟩
      extractUnit  := ⟨0#16, 0#11⟩ }
  callResult := none
  pending := []

end Sys2Proof.Machine
end

