-- ==== Sys2Proof/Machine/Flags.lean ====
section
/-! DEFINITION. The three flag outputs of the decoder (spec 10_state.md section 4): `block_parity`, `status` and
`data_valid`.  All are combinational; ENCODE writes none. -/

namespace Sys2Proof.Machine

/-- BLOCKPAR: the XOR of all 16 bits (rule R83). -/
def blockParityOf (r : Codeword) : Bool :=
  xorBits (positions.map r.getLsbD)

/-- The code of a tag on `status[1:0]`; 3 is the code of no tag (rule R42, decision D7). -/
def statusCode : OutcomeTag → BitVec 2
  | .clean => 0#2
  | .corrected => 1#2
  | .doubleErrorDetected => 2#2

/-- `data_valid`: 1 when `status` is not 2 (rule R88). -/
def dataValidOf (status : BitVec 2) : Bool :=
  status != 2#2

end Sys2Proof.Machine
end

