-- ==== Sys2Proof/Machine/DecoderSteps.lean ====
section
/-! DEFINITION. The five steps of DECODE as functions of words (spec 41_decoder.md rules R80 to R88); BLOCKPAR is in
Flags.lean. -/

namespace Sys2Proof.Machine

/-- SYNDROME: the XOR of the positions of the set bits (rule R81). -/
def syndromeOf (r : Codeword) : Syndrome :=
  positions.foldl (fun S p => if r.getLsbD p then S ^^^ BitVec.ofNat 4 p else S) 0#4

/-- LOCATE: the decision table (rule R84).  Row 2, syndrome 0 with block parity 1, is `Corrected` at position 0
(90_conflicts.md C1, decision D5). -/
def locate (S : Syndrome) (B : Bool) : Located :=
  if S = 0#4 then
    if B then ⟨.corrected, true, 0#4⟩ else ⟨.clean, false, 0#4⟩
  else
    if B then ⟨.corrected, true, S⟩ else ⟨.doubleErrorDetected, false, 0#4⟩

/-- Step 4 of the document: where row 3 is selected, the flip position lies in 1..15 (rules R84, R113). -/
def flipInRange (S : Syndrome) (B : Bool) (pos : Position) : Bool :=
  !(S != 0#4 && B) || (1 ≤ pos.toNat && pos.toNat ≤ 15)

/-- The flip mask: one-hot at `pos` when enabled, else all zeros (rule R85). -/
def flipMaskOf (flipEn : Bool) (pos : Position) : Codeword :=
  ofBits Config.codewordLength (positions.map (fun p => flipEn && p == pos.toNat))

/-- FLIP: the received word with the masked bit inverted (rule R85). -/
def flipBit (r : Codeword) (flipEn : Bool) (pos : Position) : Codeword :=
  r ^^^ flipMaskOf flipEn pos

/-- EXTRACT: the bits at the data positions of the layout table (rule R86). -/
def extractData (w : Codeword) : DataWord :=
  ofBits Config.dataLength ((List.range Config.dataLength).map (fun i => w.getLsbD (dpos i)))

/-- The port `err_pos`: the position when `status` is 1, else 0 (rule R88). -/
def errPosOf (status : BitVec 2) (pos : Position) : Position :=
  if status = 1#2 then pos else 0#4

/-- The port `data_out`: the extracted data of the fixed word, all zeros on a double error (rule R88). -/
def dataOutOf (status : BitVec 2) (fixed : Codeword) : DataWord :=
  if status = 2#2 then 0#11 else extractData fixed

/-- DECODE on a received word, as the tagged outcome (rules R80, R87). -/
def decodeWord (r : Codeword) : DecodeOutcome :=
  let loc := locate (syndromeOf r) (blockParityOf r)
  let fixed := flipBit r loc.flipEn loc.pos
  match loc.tag with
  | .clean => .clean (extractData r)
  | .corrected => .corrected loc.pos fixed (extractData fixed)
  | .doubleErrorDetected => .doubleErrorDetected

end Sys2Proof.Machine
end

