-- ==== Sys2Proof/Machine/EncoderSteps.lean ====
section
/-! DEFINITION. The four steps of ENCODE as functions of words (spec 40_encoder.md rules R60 to R64). -/

namespace Sys2Proof.Machine

/-- PLACE: each data bit at its position of the layout table, every parity position 0 (rule R61). -/
def placeData (d : DataWord) : Codeword :=
  (List.range Config.dataLength).foldl (fun w i => setPos w (dpos i) (d.getLsbD i)) 0#16

/-- HPAR for one group: the XOR of the placed bits of `G[j]` but for the parity position itself (rule R62). -/
def hpar (placed : Codeword) (j : Nat) : Bool :=
  xorBits (((group j).filter (fun p => p != ppos j)).map placed.getLsbD)

/-- The four parity trees together: bit `j` is `P[j]` (rule R60's loop over `j`). -/
def hparAll (placed : Codeword) : HammingParity :=
  ofBits Config.hammingCount ((List.range Config.hammingCount).map (hpar placed))

/-- OPAR: the XOR of the four Hamming parity bits and the placed data bits (rule R63). -/
def opar (placed : Codeword) (P : HammingParity) : Bool :=
  xorBits (bitsOf P) ^^
    xorBits ((List.range Config.dataLength).map (fun i => placed.getLsbD (dpos i)))

/-- ASSEMBLE: the parity bits written into their positions, everything else as placed (rule R64). -/
def assemble (placed : Codeword) (P : HammingParity) (overall : Bool) : Codeword :=
  (List.range Config.hammingCount).foldl (fun c j => setPos c (ppos j) (P.getLsbD j))
    (setPos placed opos overall)

/-- ENCODE on a data word (rule R60). -/
def encodeData (d : DataWord) : Codeword :=
  let placed := placeData d
  let P := hparAll placed
  assemble placed P (opar placed P)

end Sys2Proof.Machine
end

