-- ==== Sys2Proof/Machine/Ops.lean ====
section
/-! DEFINITION. The shared operations: what the levels of a block or sub-unit ARE while an input is on it, putting them
into State, returning a value to the caller, and raising the two errors (spec 60_exceptions.md).  There is no trap entry
and no trap return (rules R115, R116): an error is the value of the call, and nothing is saved. -/

namespace Sys2Proof.Machine

/-- The levels of an encoder with `d` on `data_in` (rules R15, R17, R60). -/
def encoderOn (d : DataWord) : EncoderBlock :=
  let placed := placeData d
  let P := hparAll placed
  let overall := opar placed P
  { dataIn := d, placed := placed, hammingParity := P, overallParity := overall
    codewordOut := assemble placed P overall }

/-- The levels of a decoder with `r` on `codeword_in` (rules R16, R17, R80, R88). -/
def decoderOn (r : Codeword) : DecoderBlock :=
  let S := syndromeOf r
  let B := blockParityOf r
  let loc := locate S B
  let status := statusCode loc.tag
  let fixed := flipBit r loc.flipEn loc.pos
  { codewordIn := r, syndrome := S, blockParity := B
    tag := loc.tag, flipEn := loc.flipEn, pos := loc.pos
    flipMask := flipMaskOf loc.flipEn loc.pos
    status := status, errPos := errPosOf status loc.pos
    codewordCorrected := fixed, dataOut := dataOutOf status fixed
    dataValid := dataValidOf status }

/-- The levels of a stand-alone error locator with `S` and `B` on its inputs (rules R84, R88). -/
def locateOn (S : Syndrome) (B : Bool) : LocateUnit :=
  let loc := locate S B
  let status := statusCode loc.tag
  { S := S, B := B, tag := loc.tag, flipEn := loc.flipEn, pos := loc.pos
    status := status, errPos := errPosOf status loc.pos, dataValid := dataValidOf status }

/-- The levels of a stand-alone bit-flip unit (rule R85). -/
def flipOn (r : Codeword) (flipEn : Bool) (pos : Position) : FlipUnit :=
  { r := r, flipEn := flipEn, pos := pos
    flipMask := flipMaskOf flipEn pos, fixed := flipBit r flipEn pos }

/-- Put new levels on the encoder. -/
def State.setEncoder (s : State) (b : EncoderBlock) : State := { s with encoder := b }

/-- Put new levels on the decoder. -/
def State.setDecoder (s : State) (b : DecoderBlock) : State := { s with decoder := b }

/-- Put new levels on the bench. -/
def State.setBench (s : State) (b : Bench) : State := { s with bench := b }

/-- Return a value to the caller of ENCODE or DECODE. -/
def State.setResult (s : State) (v : CallResult) : State := { s with callResult := some v }

/-- Replace what the driver will present. -/
def State.setPending (s : State) (q : List Request) : State := { s with pending := q }

/-- `raise InvalidLength(required)`: the call returns the named error in place of its result and nothing else is
computed (rules R110, R111, R114; notes/assumptions/4.md). -/
def raiseInvalidLength (required : Nat) (s : State) : Host.Outcome State Fault Refusal :=
  .next (s.setResult (.invalidLength required))

/-- `raise InternalConsistencyFault` unless the flip position is in range, else go on to `t` (rules R113, R117). -/
def checkFlip (S : Syndrome) (B : Bool) (t : State) : Host.Outcome State Fault Refusal :=
  if flipInRange S B (locate S B).pos then .next t else .fault .internalConsistencyFault

/-- The block and the bits that a request puts on it: a call brings its own bits, a relay brings the word on
`codeword_out` through the channel to the decoder (rules R38, R124). -/
def State.presented (s : State) : Request → Target × List Bool
  | .call target operand => (target, operand)
  | .relay e => (.decode, bitsOf (channel s.encoder.codewordOut e))

end Sys2Proof.Machine
end

