-- ==== Sys2Proof/Machine/DecoderFamily.lean ====
section
/-! DEFINITION. The meanings of DECODE and of its five steps (spec 41_decoder.md). -/

namespace Sys2Proof.Machine

/-- DECODE: the length check first (rules R111, R117), then the word on `codeword_in`, the position check, and the
outcome returned (rules R80, R88). -/
def execDecode (seq : List Bool) (s : State) : Host.Outcome State Fault Refusal :=
  if seq.length ≠ Config.codewordLength then raiseInvalidLength Config.codewordLength s
  else
    let r := ofBits Config.codewordLength seq
    checkFlip (syndromeOf r) (blockParityOf r)
      ((s.setDecoder (decoderOn r)).setResult (.decoded (decodeWord r)))

/-- SYNDROME (rule R81). -/
def execSyndrome (r : Codeword) (s : State) : Host.Outcome State Fault Refusal :=
  .next (s.setBench { s.bench with syndromeUnit := ⟨r, syndromeOf r⟩ })

/-- BLOCKPAR (rule R83). -/
def execBlockpar (r : Codeword) (s : State) : Host.Outcome State Fault Refusal :=
  .next (s.setBench { s.bench with blockparUnit := ⟨r, blockParityOf r⟩ })

/-- LOCATE: the decision table with the position check of the document's step 4 (rule R84). -/
def execLocate (S : Syndrome) (B : Bool) (s : State) : Host.Outcome State Fault Refusal :=
  checkFlip S B (s.setBench { s.bench with locateUnit := locateOn S B })

/-- FLIP (rule R85). -/
def execFlip (r : Codeword) (flipEn : Bool) (pos : Position) (s : State) :
    Host.Outcome State Fault Refusal :=
  .next (s.setBench { s.bench with flipUnit := flipOn r flipEn pos })

/-- EXTRACT (rule R86). -/
def execExtract (w : Codeword) (s : State) : Host.Outcome State Fault Refusal :=
  .next (s.setBench { s.bench with extractUnit := ⟨w, extractData w⟩ })

end Sys2Proof.Machine
end

