-- ==== Sys2Proof/Machine/EncoderFamily.lean ====
section
/-! DEFINITION. The meanings of ENCODE and of its four steps (spec 40_encoder.md). -/

namespace Sys2Proof.Machine

/-- ENCODE: the length check first (rules R110, R117), then the word on `data_in` and the codeword returned (R60). -/
def execEncode (seq : List Bool) (s : State) : Host.Outcome State Fault Refusal :=
  if seq.length ≠ Config.dataLength then raiseInvalidLength Config.dataLength s
  else
    let b := encoderOn (ofBits Config.dataLength seq)
    .next ((s.setEncoder b).setResult (.codeword b.codewordOut))

/-- PLACE (rule R61). -/
def execPlace (d : DataWord) (s : State) : Host.Outcome State Fault Refusal :=
  .next (s.setBench { s.bench with placeUnit := ⟨d, placeData d⟩ })

/-- HPAR: all four parity trees of the sub-unit (rules R45, R62). -/
def execHpar (placed : Codeword) (s : State) : Host.Outcome State Fault Refusal :=
  .next (s.setBench { s.bench with hparUnit := ⟨placed, hparAll placed⟩ })

/-- OPAR (rule R63). -/
def execOpar (placed : Codeword) (parity : HammingParity) (s : State) : Host.Outcome State Fault Refusal :=
  .next (s.setBench { s.bench with oparUnit := ⟨placed, parity, opar placed parity⟩ })

/-- ASSEMBLE (rule R64). -/
def execAssemble (placed : Codeword) (parity : HammingParity) (overall : Bool) (s : State) :
    Host.Outcome State Fault Refusal :=
  .next (s.setBench
    { s.bench with assembleUnit := ⟨placed, parity, overall, assemble placed parity overall⟩ })

end Sys2Proof.Machine
end

