-- ==== Sys2Proof/Machine/Dispatch.lean ====
section
/-! DEFINITION. One arm for each instruction (spec 30_encoding.md rules R44, R45). -/

namespace Sys2Proof.Machine

def exec (i : Instr) (s : State) : Host.Outcome State Fault Refusal :=
  match i with
  | .encode seq => Sys2Proof.Machine.execEncode seq s
  | .place d => Sys2Proof.Machine.execPlace d s
  | .hpar placed => Sys2Proof.Machine.execHpar placed s
  | .opar placed parity => Sys2Proof.Machine.execOpar placed parity s
  | .assemble placed parity overall => Sys2Proof.Machine.execAssemble placed parity overall s
  | .decode seq => Sys2Proof.Machine.execDecode seq s
  | .syndrome r => Sys2Proof.Machine.execSyndrome r s
  | .blockpar r => Sys2Proof.Machine.execBlockpar r s
  | .locate S B => Sys2Proof.Machine.execLocate S B s
  | .flip r flipEn pos => Sys2Proof.Machine.execFlip r flipEn pos s
  | .extract w => Sys2Proof.Machine.execExtract w s

end Sys2Proof.Machine
end

