-- ==== Sys2Proof/Machine/Step.lean ====
section
/-! DEFINITION. One step: the driver presents its next request and the block or sub-unit evaluates it (spec
10_state.md rule R12: one call, one outcome; there is no program counter). -/

namespace Sys2Proof.Machine

/-- Take the oldest request and evaluate it.  With nothing presented every wire keeps its level (rule R10). -/
def step (s : State) : Host.Outcome State Fault Refusal :=
  match s.pending with
  | [] => .next s
  | request :: rest =>
    match decode (s.presented request).1 (s.presented request).2 with
    | .ok i => exec i (s.setPending rest)
    | .error (.wrongWidth target required) => .refused (.wrongOperandWidth target required)

/-- `s` with a word of spec/opcode_table.json as the very next request. -/
def State.withFetchWord (s : State) (nbits w : Nat) : State :=
  s.setPending (.call (tableTarget nbits w) (tableBits nbits w) :: s.pending)

end Sys2Proof.Machine
end

