-- ==== Sys2Proof/Machine/ErrorPattern.lean ====
section
/-! DEFINITION. What an error pattern alone decides (spec 41_decoder.md rule R89): the syndrome and the block parity of
every word received as a valid codeword with that pattern on it, and from them the error locator's answer, by the number
of flipped positions. -/

namespace Sys2Proof.Machine

/-- The positions that a pattern flips, ascending. -/
def flippedPositions (e : Codeword) : List Nat :=
  positions.filter (fun p => e.getLsbD p)

/-- Rule R89: the syndrome of the received word is the XOR of the flipped positions. -/
def errorSyndrome (e : Codeword) : Syndrome :=
  (flippedPositions e).foldl (fun S p => S ^^^ BitVec.ofNat 4 p) 0#4

/-- Rule R89: the block parity of the received word is the number of flipped positions modulo 2. -/
def errorParity (e : Codeword) : Bool :=
  weight e % 2 == 1

/-- Rule R89's table, by the number of flips: none is row 1 of the decision table, an odd number row 2 or 3, two row 4,
and a greater even number row 1 or 4. -/
def locatedByError (e : Codeword) : Located :=
  if weight e = 0 then ⟨.clean, false, 0#4⟩
  else if errorParity e then ⟨.corrected, true, errorSyndrome e⟩
  else if weight e = 2 then ⟨.doubleErrorDetected, false, 0#4⟩
  else if errorSyndrome e = 0#4 then ⟨.clean, false, 0#4⟩
  else ⟨.doubleErrorDetected, false, 0#4⟩

end Sys2Proof.Machine
end

