-- ==== Sys2Proof/Machine/Text.lean ====
section
/-! DEFINITION. The text notation of words and results (spec 30_encoding.md rules R48, R49), a presentation concern
outside the core: nothing in the machine reads it. -/

namespace Sys2Proof.Machine

/-- The character of a bit. -/
def bitChar (b : Bool) : Char :=
  if b then '1' else '0'

/-- A sequence as characters, index 0 leftmost (rule R48). -/
def renderBits (bits : List Bool) : List Char :=
  bits.map bitChar

/-- The sequence that characters stand for; none where one is neither `0` nor `1` (rule R125: inputs are bits). -/
def parseBits : List Char → Option (List Bool)
  | [] => some []
  | c :: cs =>
    if c = '0' then (parseBits cs).map (false :: ·)
    else if c = '1' then (parseBits cs).map (true :: ·)
    else none

/-- A word as a string, index 0 leftmost (rule R48). -/
def renderWord {n : Nat} (w : BitVec n) : String :=
  String.ofList (renderBits (bitsOf w))

/-- A result of a call as rule R49 writes it. -/
def renderResult : CallResult → String
  | .codeword c => renderWord c
  | .decoded (.clean d) => "Clean(" ++ renderWord d ++ ")"
  | .decoded (.corrected pos c d) =>
    "Corrected(" ++ toString pos.toNat ++ ", " ++ renderWord c ++ ", " ++ renderWord d ++ ")"
  | .decoded .doubleErrorDetected => "DoubleErrorDetected"
  | .invalidLength required => "InvalidLength(" ++ toString required ++ ")"

end Sys2Proof.Machine
end

