-- ==== Sys2Proof/Safety.lean ====
section
/-! DEFINITION. The terms that claims use: combinational levels, valid codewords, safe steps and the driver's duties
(spec 10_state.md rule R10, 30_encoding.md rule R50, 70_reset_and_hazards.md rules R135, R136). -/

namespace Sys2Proof.Machine

/-- Every port and net of the encoder carries what the rules give for the word on `data_in` (rule R10). -/
abbrev EncoderBlock.Settled (b : EncoderBlock) : Prop :=
  b = encoderOn b.dataIn

/-- Every port and net of the decoder carries what the rules give for the word on `codeword_in` (rule R10). -/
abbrev DecoderBlock.Settled (b : DecoderBlock) : Prop :=
  b = decoderOn b.codewordIn

/-- Every stand-alone sub-unit carries at its outputs what its rule gives for its inputs (rules R10, R45). -/
abbrev Bench.Settled (b : Bench) : Prop :=
  b.placeUnit.placed = placeData b.placeUnit.d ∧
  b.hparUnit.parity = hparAll b.hparUnit.placed ∧
  b.oparUnit.overall = opar b.oparUnit.placed b.oparUnit.parity ∧
  b.assembleUnit.codeword = assemble b.assembleUnit.placed b.assembleUnit.parity b.assembleUnit.overall ∧
  b.syndromeUnit.S = syndromeOf b.syndromeUnit.r ∧
  b.blockparUnit.B = blockParityOf b.blockparUnit.r ∧
  b.locateUnit = locateOn b.locateUnit.S b.locateUnit.B ∧
  b.flipUnit = flipOn b.flipUnit.r b.flipUnit.flipEn b.flipUnit.pos ∧
  b.extractUnit.d = extractData b.extractUnit.w

/-- The hardware remembers nothing: every output is a function of the present input alone (rule R10). -/
abbrev State.Settled (s : State) : Prop :=
  s.encoder.Settled ∧ s.decoder.Settled ∧ s.bench.Settled

/-- A valid codeword: the ENCODE of some data word (rule R50). -/
def ValidCodeword (w : Codeword) : Prop :=
  ∃ d : DataWord, encodeData d = w

/-- A safe step: one that neither faults nor is refused. -/
def SafeStep (s : State) : Prop :=
  ∃ s', step s = .next s'

end Sys2Proof.Machine
end

