-- ==== Sys2Proof/Certificates/Slice0/Obligations.lean ====
section
/-! DEFINITION. What is to be proved of the model.  Each docstring names the rule of the spec, or the spec's decision
and the log entry, that the statement rests on. -/

open Sys2Proof Sys2Proof.Machine

/-! ### Decoding and stepping -/

/-- Operands written out bit by bit from the tables of 30_encoding.md sections 1 and 3, 95_test_vectors.md S1 and rows of
spec/opcode_table.json, index 0 first.  The place of the operands beside the word is the model's choice
(notes/assumptions/5.md). -/
def Obligations.WrittenOperandsDecodeToTheirInstructions : Prop :=
  decode .encode [false, false, true, true, false, false, false, true, true, true, false] =
      .ok (.encode [false, false, true, true, false, false, false, true, true, true, false]) ∧
  decode .place [false, false, true, true, false, false, false, true, true, true, false] =
      .ok (.place 0x38C#11) ∧
  decode .hpar [false, false, false, false, false, false, true, true, false, false, false, false, true, true, true,
      false] = .ok (.hpar 0x70C0#16) ∧
  decode .opar [false, false, false, false, false, false, true, true, false, false, false, false, true, true, true,
      false, false, true, true, true] = .ok (.opar 0x70C0#16 0xE#4) ∧
  decode .assemble [false, false, false, false, false, false, true, true, false, false, false, false, true, true, true,
      false, false, true, true, true, false] = .ok (.assemble 0x70C0#16 0xE#4 false) ∧
  decode .decode [false, false, true, false, true, true, true, true, true, false, false, false, true, true, true,
      false] = .ok (.decode [false, false, true, false, true, true, true, true, true, false, false, false, true, true,
      true, false]) ∧
  decode .syndrome [false, false, true, false, true, true, true, true, true, false, false, false, true, true, true,
      false] = .ok (.syndrome 0x71F4#16) ∧
  decode .blockpar [false, false, true, false, true, true, true, true, true, false, false, false, true, true, true,
      false] = .ok (.blockpar 0x71F4#16) ∧
  decode .locate [true, true, false, true, false] = .ok (.locate 5#4 true) ∧
  decode .flip [false, false, true, false, true, true, true, true, true, false, false, false, true, true, true, false,
      true, true, false, true, false] = .ok (.flip 0x71F4#16 true 5#4) ∧
  decode .extract [false, false, true, false, true, false, true, true, true, false, false, false, true, true, true,
      false] = .ok (.extract 0x71D4#16)

/-- Every instruction is read back from the target and the bits that encode it (30_encoding.md sections 1 to 3).  The
place of the operands beside the word is the model's choice (notes/assumptions/5.md). -/
def Obligations.DecodeOfEncodeIsTheInstruction : Prop :=
  ∀ i : Instr, decode (encode i).1 (encode i).2 = .ok i

/-- Every accepted request is the encoding of the instruction it decodes to: no bit is dropped (30_encoding.md sections
1 and 3).  The place of the operands beside the word is the model's choice (notes/assumptions/5.md). -/
def Obligations.EncodeOfDecodeIsTheRequest : Prop :=
  ∀ (t : Target) (bits : List Bool) (i : Instr), decode t bits = .ok i → encode i = (t, bits)

/-- The two operations accept every sequence, whose length they check themselves (60_exceptions.md section 1); a
sub-unit accepts exactly the sequences as long as its wires are many and rejects every other by name.  That rejection by
name is the model's choice (notes/assumptions/8.md): the spec knows only `InvalidLength`, and a wrong length that fixed
wires cannot express (20_memory.md section 3).  So are the widths 20, 21 and 21 of OPAR, ASSEMBLE and FLIP: the operands
beside the word follow it in one sequence (notes/assumptions/5.md). -/
def Obligations.DecoderRejectsExactlyWrongWidths : Prop :=
  (∀ (t : Target) (bits : List Bool),
    ((∃ i, decode t bits = .ok i) ↔ (t = .encode ∨ t = .decode ∨ bits.length = t.width)) ∧
    (decode t bits = .error (.wrongWidth t t.width) ↔
      (t ≠ .encode ∧ t ≠ .decode ∧ bits.length ≠ t.width))) ∧
  Target.place.width = 11 ∧ Target.hpar.width = 16 ∧ Target.opar.width = 16 + 4 ∧
  Target.assemble.width = 16 + 4 + 1 ∧ Target.syndrome.width = 16 ∧ Target.blockpar.width = 16 ∧
  Target.locate.width = 5 ∧ Target.flip.width = 16 + 1 + 4 ∧ Target.extract.width = 16

/-- When the oldest request decodes to an instruction, the step is that instruction's meaning after the request has left
the queue, and nothing else.  The queue of requests, and a step that takes the oldest, are the model's choice
(notes/assumptions/3.md): the hardware fetches nothing and has no order of its own (10_state.md section 1). -/
def Obligations.StepRunsTheDecodedInstruction : Prop :=
  ∀ (s : State) (target : Target) (operand : List Bool) (rest : List Request) (i : Instr),
    s.pending = .call target operand :: rest → decode target operand = .ok i →
      step s = exec i { s with pending := rest }

/-- A relay presents the word on `codeword_out`, with exactly the positions set in the error pattern inverted, to the
decoder: that word is the channel's (20_memory.md section 8).  The relay as a request, and its leaving the queue, are the
model's choice (notes/assumptions/3.md). -/
def Obligations.RelayPresentsTheChannelWordToDecode : Prop :=
  ∀ (s : State) (e : Codeword) (rest : List Request), s.pending = .relay e :: rest →
    ∃ r : Codeword, step s = exec (.decode (bitsOf r)) { s with pending := rest } ∧
      ∀ p, p < 16 → r.getLsbD p =
        (if e.getLsbD p then !s.encoder.codewordOut.getLsbD p else s.encoder.codewordOut.getLsbD p)

/-- With nothing presented, every wire keeps its level (10_state.md section 1; the idle step is the model's choice,
notes/assumptions/3.md). -/
def Obligations.NothingPresentedNothingChanges : Prop :=
  ∀ s : State, s.pending = [] → step s = .next s

/-- Every step that goes on takes exactly the oldest request off the queue.  The queue is the model's choice
(notes/assumptions/3.md). -/
def Obligations.StepTakesExactlyOneRequest : Prop :=
  ∀ s t : State, step s = .next t → t.pending = s.pending.tail

/-! ### ENCODE and its steps -/

/-- ENCODE completes on every sequence of 11 bits: all sixteen wires of `codeword_out`, and the nets `placed`, `P` and
`OP`, in the sequence's own bits; nothing but the encoder's wires and the returned value changes (40_encoder.md sections
1 and 2).  The places of the data bits are decision D2, the packing D3.  That the returned value is kept in State, and
that the bench is no part of the block and stays as it is, are the model's choice (notes/assumptions/2.md and 7.md). -/
def Obligations.EncodeCompletes : Prop :=
  ∀ (s : State) (seq : List Bool), seq.length = 11 →
    let d := fun i => seq.getD i false
    let op := xorBits [d 0, d 1, d 2, d 4, d 5, d 7, d 10]
    let p0 := xorBits [d 0, d 1, d 3, d 4, d 6, d 8, d 10]
    let p1 := xorBits [d 0, d 2, d 3, d 5, d 6, d 9, d 10]
    let p2 := xorBits [d 1, d 2, d 3, d 7, d 8, d 9, d 10]
    let p3 := xorBits [d 4, d 5, d 6, d 7, d 8, d 9, d 10]
    ∃ b : EncoderBlock,
      exec (.encode seq) s = .next { s with encoder := b, callResult := some (.codeword b.codewordOut) } ∧
      bitsOf b.dataIn = seq ∧
      bitsOf b.placed =
        [false, false, false, d 0, false, d 1, d 2, d 3, false, d 4, d 5, d 6, d 7, d 8, d 9, d 10] ∧
      bitsOf b.hammingParity = [p0, p1, p2, p3] ∧
      b.overallParity = op ∧
      bitsOf b.codewordOut = [op, p0, p1, d 0, p2, d 1, d 2, d 3, p3, d 4, d 5, d 6, d 7, d 8, d 9, d 10]

/-- PLACE completes on every data word (40_encoder.md section 2; decision D2); only its own sub-unit's wires change.
That the step is evaluated on a sub-unit that stands alone, held in the bench, and leaves the encoder's own nets as they
are is the model's choice (notes/assumptions/7.md). -/
def Obligations.PlaceCompletes : Prop :=
  ∀ (s : State) (d : DataWord), ∃ w : Codeword,
    exec (.place d) s = .next { s with bench := { s.bench with placeUnit := ⟨d, w⟩ } } ∧
    bitsOf w = [false, false, false, d.getLsbD 0, false, d.getLsbD 1, d.getLsbD 2, d.getLsbD 3, false, d.getLsbD 4,
      d.getLsbD 5, d.getLsbD 6, d.getLsbD 7, d.getLsbD 8, d.getLsbD 9, d.getLsbD 10]

/-- HPAR completes on every 16-bit word: `P[j]` is the XOR of the word's bits at the positions that have index bit `j`
set, the parity position `2^j` left out; and, read as a number, `P` is the XOR of the positions of the set data bits
(40_encoder.md section 2).  Only its own sub-unit's wires change.  That one evaluation drives all four groups at once,
and that every 16-bit word is an operand, are the model's (notes/assumptions/9.md).  That the step is evaluated on a
sub-unit that stands alone, held in the bench, and leaves the encoder's own nets as they are is the model's choice
(notes/assumptions/7.md). -/
def Obligations.HparCompletes : Prop :=
  ∀ (s : State) (placed : Codeword), ∃ P : HammingParity,
    exec (.hpar placed) s = .next { s with bench := { s.bench with hparUnit := ⟨placed, P⟩ } } ∧
    (∀ j, j < 4 → P.getLsbD j =
      xorBits (((List.range 16).filter (fun p => p.testBit j && p != 2 ^ j)).map placed.getLsbD)) ∧
    P = ([3, 5, 6, 7, 9, 10, 11, 12, 13, 14, 15].filter (fun p => placed.getLsbD p)).foldl
      (fun acc p => acc ^^^ BitVec.ofNat 4 p) 0#4

/-- OPAR completes on every word and parity: `OP` is the XOR of the four parity bits and the eleven data positions, and
makes the XOR of all 16 bits of the assembled codeword 0 (40_encoder.md section 2).  Only its own sub-unit's wires
change.  That a word with parity positions set is an operand too is the model's (notes/assumptions/9.md).  That the step
is evaluated on a sub-unit that stands alone, held in the bench, and leaves the encoder's own nets as they are is the
model's choice (notes/assumptions/7.md). -/
def Obligations.OparCompletes : Prop :=
  ∀ (s : State) (placed : Codeword) (P : HammingParity), ∃ overall : Bool,
    exec (.opar placed P) s = .next { s with bench := { s.bench with oparUnit := ⟨placed, P, overall⟩ } } ∧
    overall = (P.getLsbD 0 ^^ P.getLsbD 1 ^^ P.getLsbD 2 ^^ P.getLsbD 3 ^^
      xorBits ([3, 5, 6, 7, 9, 10, 11, 12, 13, 14, 15].map placed.getLsbD)) ∧
    xorBits (bitsOf (assemble placed P overall)) = false

/-- ASSEMBLE completes on every operand: position 0 the overall bit, positions 1, 2, 4, 8 the Hamming parity bits, the
rest as placed (40_encoder.md section 2).  Only its own sub-unit's wires change.  That a word with parity positions set
is an operand too is the model's (notes/assumptions/9.md).  That the step is evaluated on a sub-unit that stands alone,
held in the bench, and leaves the encoder's own nets as they are is the model's choice (notes/assumptions/7.md). -/
def Obligations.AssembleCompletes : Prop :=
  ∀ (s : State) (w : Codeword) (P : HammingParity) (overall : Bool), ∃ c : Codeword,
    exec (.assemble w P overall) s =
      .next { s with bench := { s.bench with assembleUnit := ⟨w, P, overall, c⟩ } } ∧
    bitsOf c = [overall, P.getLsbD 0, P.getLsbD 1, w.getLsbD 3, P.getLsbD 2, w.getLsbD 5, w.getLsbD 6, w.getLsbD 7,
      P.getLsbD 3, w.getLsbD 9, w.getLsbD 10, w.getLsbD 11, w.getLsbD 12, w.getLsbD 13, w.getLsbD 14, w.getLsbD 15]

/-- A sequence that has not 11 elements makes ENCODE return `InvalidLength(11)` and nothing else: no wire moves, no
codeword is returned (60_exceptions.md sections 1 to 3).  That the call goes on to a next state is the model's choice
(notes/assumptions/4.md).  That the returned value is kept in State, and that the bench is no part of the block and
stays as it is, are the model's choice (notes/assumptions/2.md and 7.md). -/
def Obligations.EncodeReportsInvalidLength : Prop :=
  ∀ (s : State) (seq : List Bool), seq.length ≠ 11 →
    exec (.encode seq) s = .next { s with callResult := some (.invalidLength 11) }

/-- Rule R65: every output of ENCODE has syndrome 0 and block parity 0; each covering group and the whole word XOR to 0,
and the number of ones is even. -/
def Obligations.EncoderOutputChecksToZero : Prop :=
  ∀ (s : State) (seq : List Bool), seq.length = 11 →
    ∃ (t : State) (c : Codeword), exec (.encode seq) s = .next t ∧ t.callResult = some (.codeword c) ∧
      t.encoder.codewordOut = c ∧ syndromeOf c = 0#4 ∧ blockParityOf c = false ∧
      (∀ j, j < 4 → xorBits (((List.range 16).filter (fun p => p.testBit j)).map c.getLsbD) = false) ∧
      xorBits (bitsOf c) = false ∧ weight c % 2 = 0

/-- From any two states ENCODE of one sequence puts the same levels on the encoder, returns the same codeword and
touches nothing else; its only error is the length check (40_encoder.md section 3).  That a call of the wrong length
goes on to a next state, in which only the returned value changes, is the model's choice (notes/assumptions/4.md).  That
the returned value is kept in State, and that the bench is no part of the block and stays as it is, are the model's
choice (notes/assumptions/2.md and 7.md). -/
def Obligations.EncodeIsDeterministicWithoutSideEffects : Prop :=
  ∀ (s₁ s₂ : State) (seq : List Bool),
    (seq.length = 11 → ∃ b : EncoderBlock,
      exec (.encode seq) s₁ = .next { s₁ with encoder := b, callResult := some (.codeword b.codewordOut) } ∧
      exec (.encode seq) s₂ = .next { s₂ with encoder := b, callResult := some (.codeword b.codewordOut) }) ∧
    (seq.length ≠ 11 →
      exec (.encode seq) s₁ = .next { s₁ with callResult := some (.invalidLength 11) } ∧
      exec (.encode seq) s₂ = .next { s₂ with callResult := some (.invalidLength 11) })

/-- ENCODE of the XOR of two data words is the XOR of their codewords (40_encoder.md section 3). -/
def Obligations.EncodeIsLinear : Prop :=
  ∀ (s : State) (a b : List Bool), a.length = 11 → b.length = 11 →
    ∃ ta tb tx : State, exec (.encode a) s = .next ta ∧ exec (.encode b) s = .next tb ∧
      exec (.encode (List.zipWith (fun x y => x ^^ y) a b)) s = .next tx ∧
      tx.encoder.codewordOut = ta.encoder.codewordOut ^^^ tb.encoder.codewordOut

/-- ENCODE of the all-zero data word is the all-zero codeword, every net of the encoder is 0, and nothing else changes
(40_encoder.md section 3).  That the returned value is kept in State, and that the bench is no part of the block and
stays as it is, are the model's choice (notes/assumptions/2.md and 7.md). -/
def Obligations.EncodeOfAllZerosIsAllZeros : Prop :=
  ∀ s : State, exec (.encode (List.replicate 11 false)) s =
    .next { s with encoder := ⟨0#11, 0#16, 0#4, false, 0#16⟩, callResult := some (.codeword 0#16) }

/-- The data bits appear unchanged at the data positions, so different data words give different codewords
(40_encoder.md section 3; decision D2). -/
def Obligations.EncodeIsSystematicAndInjective : Prop :=
  ∀ (s : State) (a b : List Bool), a.length = 11 → b.length = 11 →
    ∃ ta tb : State, exec (.encode a) s = .next ta ∧ exec (.encode b) s = .next tb ∧
      [3, 5, 6, 7, 9, 10, 11, 12, 13, 14, 15].map ta.encoder.codewordOut.getLsbD = a ∧
      (ta.encoder.codewordOut = tb.encoder.codewordOut → a = b)

/-! ### DECODE and its steps -/

/-- DECODE completes on every sequence of 16 bits; every port and net of the decoder, and the returned outcome, for each
row of the decision table (41_decoder.md sections 1 to 6); nothing else changes.  Row 2 (syndrome 0 with block parity 1)
is decision D5, the codes and the unused ports D7 and D8, the data order D2.  That the returned value is kept in State,
and that the bench is no part of the block and stays as it is, are the model's choice (notes/assumptions/2.md and 7.md).
-/
def Obligations.DecodeCompletes : Prop :=
  ∀ (s : State) (seq : List Bool), seq.length = 16 →
    ∃ (b : DecoderBlock) (o : DecodeOutcome),
      exec (.decode seq) s = .next { s with decoder := b, callResult := some (.decoded o) } ∧
      bitsOf b.codewordIn = seq ∧
      b.syndrome = ((List.range 16).filter (fun p => seq.getD p false)).foldl
        (fun acc p => acc ^^^ BitVec.ofNat 4 p) 0#4 ∧
      b.blockParity = xorBits seq ∧
      (b.syndrome = 0#4 ∧ b.blockParity = false →
        b.tag = .clean ∧ b.flipEn = false ∧ b.pos = 0#4 ∧ b.flipMask = 0#16 ∧ b.status = 0#2 ∧
        b.errPos = 0#4 ∧ b.codewordCorrected = b.codewordIn ∧ b.dataValid = true ∧
        bitsOf b.dataOut = [3, 5, 6, 7, 9, 10, 11, 12, 13, 14, 15].map b.codewordIn.getLsbD ∧
        o = .clean b.dataOut) ∧
      (b.blockParity = true →
        b.tag = .corrected ∧ b.flipEn = true ∧ b.pos = b.syndrome ∧
        b.flipMask = 1#16 <<< b.syndrome.toNat ∧ b.status = 1#2 ∧ b.errPos = b.syndrome ∧
        (∀ p, p < 16 → b.codewordCorrected.getLsbD p =
          if p = b.syndrome.toNat then !b.codewordIn.getLsbD p else b.codewordIn.getLsbD p) ∧
        b.dataValid = true ∧
        bitsOf b.dataOut = [3, 5, 6, 7, 9, 10, 11, 12, 13, 14, 15].map b.codewordCorrected.getLsbD ∧
        o = .corrected b.errPos b.codewordCorrected b.dataOut) ∧
      (b.syndrome ≠ 0#4 ∧ b.blockParity = false →
        b.tag = .doubleErrorDetected ∧ b.flipEn = false ∧ b.pos = 0#4 ∧ b.flipMask = 0#16 ∧
        b.status = 2#2 ∧ b.errPos = 0#4 ∧ b.codewordCorrected = b.codewordIn ∧ b.dataValid = false ∧
        b.dataOut = 0#11 ∧ o = .doubleErrorDetected)

/-- SYNDROME is the XOR of the positions of the set bits; position 0 never changes it; the all-zero and the all-one word
give 0 and a single set bit gives its position (41_decoder.md section 2).  Only its own sub-unit's wires change.  That
the step is evaluated on a sub-unit that stands alone, held in the bench, and leaves the decoder's own nets as they are
is the model's choice (notes/assumptions/7.md). -/
def Obligations.SyndromeCompletes : Prop :=
  ∀ (s : State) (r : Codeword), ∃ S : Syndrome,
    exec (.syndrome r) s = .next { s with bench := { s.bench with syndromeUnit := ⟨r, S⟩ } } ∧
    S = ((List.range 16).filter (fun p => r.getLsbD p)).foldl (fun acc p => acc ^^^ BitVec.ofNat 4 p) 0#4 ∧
    S.toNat ≤ 15 ∧
    (∀ v, exec (.syndrome (setPos r 0 v)) s =
      .next { s with bench := { s.bench with syndromeUnit := ⟨setPos r 0 v, S⟩ } }) ∧
    (r = 0#16 → S = 0#4) ∧ (r = 0xFFFF#16 → S = 0#4) ∧
    (∀ p, p < 16 → r = 1#16 <<< p → S.toNat = p)

/-- BLOCKPAR is the XOR of all 16 bits, that is the number of ones modulo 2; the all-zero and the all-one word give 0
and a single set bit, at position 0 too, gives 1 (41_decoder.md section 2).  Only its own sub-unit's wires change.  That
the step is evaluated on a sub-unit that stands alone, held in the bench, and leaves the decoder's own nets as they are
is the model's choice (notes/assumptions/7.md). -/
def Obligations.BlockparCompletes : Prop :=
  ∀ (s : State) (r : Codeword), ∃ B : Bool,
    exec (.blockpar r) s = .next { s with bench := { s.bench with blockparUnit := ⟨r, B⟩ } } ∧
    B = xorBits (bitsOf r) ∧ B = decide (weight r % 2 = 1) ∧
    (r = 0#16 → B = false) ∧ (r = 0xFFFF#16 → B = false) ∧
    (∀ p, p < 16 → r = 1#16 <<< p → B = true)

/-- LOCATE completes on all 32 operands, by the decision table (41_decoder.md section 3); its position check never
fires.  Row 2 is decision D5, the codes and the unused ports D7 and D8.  Only its own sub-unit's wires change.  That the
stand-alone locator carries the three ports it drives, and that the position check is made in it, are the model's
(notes/assumptions/11.md).  That the step is evaluated on a sub-unit that stands alone, held in the bench, and leaves
the decoder's own nets as they are is the model's choice (notes/assumptions/7.md). -/
def Obligations.LocateCompletes : Prop :=
  ∀ (s : State) (S : Syndrome) (B : Bool), ∃ u : LocateUnit,
    exec (.locate S B) s = .next { s with bench := { s.bench with locateUnit := u } } ∧
    (S = 0#4 → B = false → u = ⟨S, B, .clean, false, 0#4, 0#2, 0#4, true⟩) ∧
    (S = 0#4 → B = true → u = ⟨S, B, .corrected, true, 0#4, 1#2, 0#4, true⟩) ∧
    (S ≠ 0#4 → B = true → u = ⟨S, B, .corrected, true, S, 1#2, S, true⟩) ∧
    (S ≠ 0#4 → B = false → u = ⟨S, B, .doubleErrorDetected, false, 0#4, 2#2, 0#4, false⟩)

/-- FLIP inverts exactly the bit at `pos` when enabled and none otherwise, by XOR with the one-hot or zero mask; at
position 0 no data bit changes; the input wire keeps its word; on a double error nothing is enabled (41_decoder.md
section 4).  Only its own sub-unit's wires change.  That the step is evaluated on a sub-unit that stands alone, held in
the bench, and leaves the decoder's own nets as they are is the model's choice (notes/assumptions/7.md). -/
def Obligations.FlipCompletes : Prop :=
  (∀ (s : State) (r : Codeword) (flipEn : Bool) (pos : Position), ∃ mask fixed : Codeword,
    exec (.flip r flipEn pos) s =
      .next { s with bench := { s.bench with flipUnit := ⟨r, flipEn, pos, mask, fixed⟩ } } ∧
    (∀ p, p < 16 → mask.getLsbD p = (flipEn && p == pos.toNat)) ∧
    fixed = r ^^^ mask ∧
    (flipEn = true → ∀ p, p < 16 →
      fixed.getLsbD p = if p = pos.toNat then !r.getLsbD p else r.getLsbD p) ∧
    (flipEn = false → fixed = r) ∧
    (pos = 0#4 → ∀ p ∈ [3, 5, 6, 7, 9, 10, 11, 12, 13, 14, 15], fixed.getLsbD p = r.getLsbD p)) ∧
  (∀ (S : Syndrome) (B : Bool), (locate S B).tag = .doubleErrorDetected → (locate S B).flipEn = false)

/-- EXTRACT completes on every word: the bits at the data positions in ascending order (41_decoder.md section 5;
decision D2).  Only its own sub-unit's wires change.  That the step is evaluated on a sub-unit that stands alone, held
in the bench, and leaves the decoder's own nets as they are is the model's choice (notes/assumptions/7.md). -/
def Obligations.ExtractCompletes : Prop :=
  ∀ (s : State) (w : Codeword), ∃ d : DataWord,
    exec (.extract w) s = .next { s with bench := { s.bench with extractUnit := ⟨w, d⟩ } } ∧
    bitsOf d = [3, 5, 6, 7, 9, 10, 11, 12, 13, 14, 15].map w.getLsbD

/-- A sequence that has not 16 elements makes DECODE return `InvalidLength(16)` and nothing else (60_exceptions.md
sections 1 to 3).  The reported 16 is decision D10; that the call goes on to a next state is the model's choice
(notes/assumptions/4.md).  That the returned value is kept in State, and that the bench is no part of the block and
stays as it is, are the model's choice (notes/assumptions/2.md and 7.md). -/
def Obligations.DecodeReportsInvalidLength : Prop :=
  ∀ (s : State) (seq : List Bool), seq.length ≠ 16 →
    exec (.decode seq) s = .next { s with callResult := some (.invalidLength 16) }

/-- Bit `j` of the syndrome is the parity of the received bits at the positions with index bit `j` set, the group's own
parity position included; equally the parity under the masks of 30_encoding.md (41_decoder.md section 2). -/
def Obligations.SyndromeBitsAreGroupParities : Prop :=
  ∀ (s : State) (seq : List Bool), seq.length = 16 → ∃ t : State, exec (.decode seq) s = .next t ∧
    (∀ j, j < 4 → t.decoder.syndrome.getLsbD j =
      xorBits (((List.range 16).filter (fun p => p.testBit j)).map (fun p => seq.getD p false))) ∧
    t.decoder.syndrome.getLsbD 0 = xorBits (bitsOf (t.decoder.codewordIn &&& 0xAAAA#16)) ∧
    t.decoder.syndrome.getLsbD 1 = xorBits (bitsOf (t.decoder.codewordIn &&& 0xCCCC#16)) ∧
    t.decoder.syndrome.getLsbD 2 = xorBits (bitsOf (t.decoder.codewordIn &&& 0xF0F0#16)) ∧
    t.decoder.syndrome.getLsbD 3 = xorBits (bitsOf (t.decoder.codewordIn &&& 0xFF00#16))

/-- From any two states DECODE of one sequence puts the same levels on the decoder and returns the same outcome in one
step, and touches nothing else (41_decoder.md section 7).  That the returned value is kept in State, and that the bench
is no part of the block and stays as it is, are the model's choice (notes/assumptions/2.md and 7.md). -/
def Obligations.DecodeIsDeterministicAndStateless : Prop :=
  ∀ (s₁ s₂ : State) (seq : List Bool), seq.length = 16 → ∃ (b : DecoderBlock) (o : DecodeOutcome),
    exec (.decode seq) s₁ = .next { s₁ with decoder := b, callResult := some (.decoded o) } ∧
    exec (.decode seq) s₂ = .next { s₂ with decoder := b, callResult := some (.decoded o) }

/-- DECODE reports `DoubleErrorDetected` exactly for a non-zero syndrome with block parity 0 (row 4), with no data word;
and whatever was decoded before, the next input is decoded as from any other state (60_exceptions.md section 1).  That
the port `data_valid` then carries 0 is decision D8 (notes/assumptions/13.md).  That the whole states agree also takes
in the returned value kept in State, the queue and the bench, which are the model's (notes/assumptions/2.md, 3.md and
7.md). -/
def Obligations.DoubleErrorIsAReportedOutcome : Prop :=
  ∀ (s : State) (seq : List Bool), seq.length = 16 → ∃ t : State, exec (.decode seq) s = .next t ∧
    (t.callResult = some (.decoded .doubleErrorDetected) ↔
      (t.decoder.syndrome ≠ 0#4 ∧ t.decoder.blockParity = false)) ∧
    (t.callResult = some (.decoded .doubleErrorDetected) → t.decoder.dataValid = false) ∧
    ∀ next : List Bool, next.length = 16 → ∃ u v : State, exec (.decode next) t = .next u ∧
      exec (.decode next) s = .next v ∧ u = v

/-! ### What the two operations guarantee together -/

/-- Rule R90: on a clean channel every data word comes back as `Clean`. -/
def Obligations.CleanRoundTripReturnsTheData : Prop :=
  ∀ (s : State) (d : List Bool), d.length = 11 → ∃ t u : State, exec (.encode d) s = .next t ∧
    exec (.decode (bitsOf t.encoder.codewordOut)) t = .next u ∧
    ∃ w : DataWord, u.callResult = some (.decoded (.clean w)) ∧ bitsOf w = d

/-- Every single flip, position 0 included, is corrected at its position with the sent codeword and data recovered
(41_decoder.md section 7; at position 0 by decision D5). -/
def Obligations.SingleErrorIsCorrected : Prop :=
  ∀ (s : State) (d : List Bool) (p : Nat), d.length = 11 → p < 16 →
    ∃ t u : State, exec (.encode d) s = .next t ∧
      exec (.decode (bitsOf (inject t.encoder.codewordOut [p]))) t = .next u ∧
      ∃ w : DataWord, bitsOf w = d ∧
        u.callResult = some (.decoded (.corrected (BitVec.ofNat 4 p) t.encoder.codewordOut w)) ∧
        u.decoder.errPos.toNat = p ∧ u.decoder.codewordCorrected = t.encoder.codewordOut ∧
        u.decoder.dataOut = w ∧ u.decoder.dataValid = true

/-- Every double flip is detected, position 0 included; when one position is 0 the syndrome is the other, and the block
parity is 0; there are 120 pairs (41_decoder.md section 7).  That the syndrome is the XOR of the two positions for every
pair is the spec's own inference from its rules R81, R83 and R65 (the same section, the error pattern's table). -/
def Obligations.DoubleErrorIsDetected : Prop :=
  (∀ (s : State) (d : List Bool) (p q : Nat), d.length = 11 → p < 16 → q < 16 → p ≠ q →
    ∃ t u : State, exec (.encode d) s = .next t ∧
      exec (.decode (bitsOf (inject t.encoder.codewordOut [p, q]))) t = .next u ∧
      u.callResult = some (.decoded .doubleErrorDetected) ∧
      u.decoder.syndrome.toNat = p ^^^ q ∧ (q = 0 → u.decoder.syndrome.toNat = p) ∧
      (p = 0 → u.decoder.syndrome.toNat = q) ∧ u.decoder.syndrome ≠ 0#4 ∧ u.decoder.blockParity = false) ∧
  ((List.range 16).flatMap (fun p => (List.range p).map (fun q => (p, q)))).length = 120

/-- `Corrected` is reported only for block parity 1, and so, whatever codeword was sent, only after an odd number of
flips; and with at most two flips a data word that is reported is the data word that was sent (41_decoder.md section 7;
the flip at position 0 by decision D5).  What the ports `data_valid` and `data_out` carry is decision D8
(notes/assumptions/13.md). -/
def Obligations.NoWrongCorrectionAndNoSilentCorruption : Prop :=
  (∀ (s : State) (r : List Bool), r.length = 16 → ∃ t : State, exec (.decode r) s = .next t ∧
    ((∃ p c w, t.callResult = some (.decoded (.corrected p c w))) → t.decoder.blockParity = true)) ∧
  (∀ (s : State) (d : List Bool) (e : Codeword), d.length = 11 →
    ∃ t u : State, exec (.encode d) s = .next t ∧
      exec (.decode (bitsOf (channel t.encoder.codewordOut e))) t = .next u ∧
      ((∃ p c w, u.callResult = some (.decoded (.corrected p c w))) → weight e % 2 = 1) ∧
      (weight e ≤ 2 →
        (∀ w, u.callResult = some (.decoded (.clean w)) → bitsOf w = d) ∧
        (∀ p c w, u.callResult = some (.decoded (.corrected p c w)) → bitsOf w = d) ∧
        (u.decoder.dataValid = true → bitsOf u.decoder.dataOut = d)))

/-- Three flips are miscorrected: `Corrected` at the XOR of the three positions, which is none of them, with the data of
another codeword presented as valid (41_decoder.md section 7; decision D17, and D5 where the XOR is 0). -/
def Obligations.TripleErrorIsMiscorrected : Prop :=
  ∀ (s : State) (d : List Bool) (p q r : Nat), d.length = 11 → p < 16 → q < 16 → r < 16 →
    p ≠ q → p ≠ r → q ≠ r →
    ∃ t u : State, exec (.encode d) s = .next t ∧
      exec (.decode (bitsOf (inject t.encoder.codewordOut [p, q, r]))) t = .next u ∧
      u.decoder.status = 1#2 ∧ u.decoder.dataValid = true ∧ u.decoder.errPos.toNat = p ^^^ q ^^^ r ∧
      p ^^^ q ^^^ r ∉ [p, q, r] ∧ bitsOf u.decoder.dataOut ≠ d ∧
      ValidCodeword u.decoder.codewordCorrected ∧
      weight (u.decoder.codewordCorrected ^^^ t.encoder.codewordOut) = 4

/-- Four flips whose positions XOR to 0 are accepted as `Clean` with wrong data, four whose positions do not are detected
(41_decoder.md section 7; decision D17). -/
def Obligations.QuadrupleErrorIsCleanOrDetected : Prop :=
  ∀ (s : State) (d : List Bool) (e : Codeword), d.length = 11 → weight e = 4 →
    ∃ t u : State, exec (.encode d) s = .next t ∧
      exec (.decode (bitsOf (channel t.encoder.codewordOut e))) t = .next u ∧
      (syndromeOf e = 0#4 → ∃ w : DataWord, u.callResult = some (.decoded (.clean w)) ∧ bitsOf w ≠ d) ∧
      (syndromeOf e ≠ 0#4 → u.callResult = some (.decoded .doubleErrorDetected))

/-- Syndrome and block parity of a received word are those of the error pattern alone (41_decoder.md section 7). -/
def Obligations.SyndromeAndParityDependOnTheErrorAlone : Prop :=
  ∀ (s : State) (c e : Codeword), ValidCodeword c → ∃ t u : State,
    exec (.decode (bitsOf (channel c e))) s = .next t ∧ exec (.decode (bitsOf e)) s = .next u ∧
    t.decoder.syndrome = u.decoder.syndrome ∧ t.decoder.blockParity = u.decoder.blockParity ∧
    t.decoder.syndrome = ((List.range 16).filter (fun p => e.getLsbD p)).foldl
      (fun acc p => acc ^^^ BitVec.ofNat 4 p) 0#4 ∧
    t.decoder.blockParity = decide (weight e % 2 = 1)

/-- For every data word, syndrome and block parity there is exactly one received word that has them, so each of the 32
cells of the decision table holds 2048 inputs (41_decoder.md section 7, census). -/
def Obligations.EachTableCellHoldsOneWordPerDataWord : Prop :=
  ∀ (s : State) (d : DataWord) (S : Syndrome) (B : Bool), ∃ w : Codeword,
    (∃ t : State, exec (.decode (bitsOf w)) s = .next t ∧ extractData w = d ∧
      t.decoder.syndrome = S ∧ t.decoder.blockParity = B) ∧
    ∀ w' : Codeword, (∃ t : State, exec (.decode (bitsOf w')) s = .next t ∧ extractData w' = d ∧
      t.decoder.syndrome = S ∧ t.decoder.blockParity = B) → w' = w

/-- Whenever data is reported as valid, the reported codeword is a valid codeword and is the ENCODE of that data
(41_decoder.md section 7; decisions D5 and D8). -/
def Obligations.ReportedDataEncodesToTheReportedCodeword : Prop :=
  ∀ (s : State) (r : List Bool), r.length = 16 → ∃ t : State, exec (.decode r) s = .next t ∧
    (t.decoder.dataValid = true →
      syndromeOf t.decoder.codewordCorrected = 0#4 ∧ blockParityOf t.decoder.codewordCorrected = false ∧
      ∃ u : State, exec (.encode (bitsOf t.decoder.dataOut)) t = .next u ∧
        u.encoder.codewordOut = t.decoder.codewordCorrected)

/-- A word is a valid codeword exactly when it checks to zero, exactly when DECODE calls it `Clean`; valid codewords are
closed under XOR, and two distinct ones differ in at least four positions (30_encoding.md section 4).  That DECODE calls
no other word `Clean` rests on decision D5 (notes/assumptions/13.md): syndrome 0 with block parity 1 is `Corrected`. -/
def Obligations.ValidCodewordsAreThoseThatCheckToZero : Prop :=
  (∀ (s : State) (w : Codeword), ∃ t : State, exec (.decode (bitsOf w)) s = .next t ∧
    (ValidCodeword w ↔ (syndromeOf w = 0#4 ∧ blockParityOf w = false)) ∧
    (ValidCodeword w ↔ ∃ d, t.callResult = some (.decoded (.clean d)))) ∧
  (∀ a b : Codeword, ValidCodeword a → ValidCodeword b →
    ValidCodeword (a ^^^ b) ∧ (a ≠ b → 4 ≤ weight (a ^^^ b)))

/-- A correction at a parity position changes no data bit (70_reset_and_hazards.md section 3; position 0 by decision D5,
the ports by D8). -/
def Obligations.CorrectionAtAParityPositionKeepsTheData : Prop :=
  ∀ (s : State) (r : List Bool), r.length = 16 → ∃ t : State, exec (.decode r) s = .next t ∧
    (t.decoder.status = 1#2 → t.decoder.errPos.toNat ∈ [0, 1, 2, 4, 8] →
      bitsOf t.decoder.dataOut = [3, 5, 6, 7, 9, 10, 11, 12, 13, 14, 15].map (fun p => r.getD p false) ∧
      t.decoder.codewordCorrected ≠ t.decoder.codewordIn)

/-- From any state whatever, a driver that encodes a data word and lets the channel flip at most two bits gets the data
back or is told it is lost, in two steps: no flip `Clean`, one flip `Corrected`, two flips `DoubleErrorDetected`; the
two requests, and only they, are taken off the queue (41_decoder.md section 7, 20_memory.md section 8).  The flip at
position 0 is corrected by decision D5 (notes/assumptions/13.md); the queue and the relay are the model's choice
(notes/assumptions/3.md).  That ENCODE and DECODE leave the stand-alone bench as it is is the model's choice too
(notes/assumptions/7.md). -/
def Obligations.LinkDeliversOrReportsUpToTwoFlips : Prop :=
  ∀ (s : State) (d : List Bool) (e : Codeword) (rest : List Request), d.length = 11 → weight e ≤ 2 →
    s.pending = .call .encode d :: .relay e :: rest →
    ∃ u : State, core.run 2 s = .next u ∧ u.pending = rest ∧ u.bench = s.bench ∧
      (weight e = 0 → ∃ w, bitsOf w = d ∧ u.callResult = some (.decoded (.clean w))) ∧
      (weight e = 1 → ∃ p w, e = 1#16 <<< p ∧ p < 16 ∧ bitsOf w = d ∧
        u.callResult = some (.decoded (.corrected (BitVec.ofNat 4 p) u.encoder.codewordOut w))) ∧
      (weight e = 2 → u.callResult = some (.decoded .doubleErrorDetected))

/-- The four steps of ENCODE evaluated one after another on the bench, each on what the one before gave, give the
codeword that ENCODE gives (40_encoder.md section 1).  The bench of stand-alone sub-units is the model's choice
(notes/assumptions/7.md). -/
def Obligations.StepsOfEncodeComposeToEncode : Prop :=
  ∀ (s : State) (d : List Bool), d.length = 11 → ∃ s₀ s₁ s₂ s₃ s₄ : State,
    exec (.encode d) s = .next s₀ ∧
    exec (.place (ofBits 11 d)) s = .next s₁ ∧
    exec (.hpar s₁.bench.placeUnit.placed) s₁ = .next s₂ ∧
    exec (.opar s₁.bench.placeUnit.placed s₂.bench.hparUnit.parity) s₂ = .next s₃ ∧
    exec (.assemble s₁.bench.placeUnit.placed s₂.bench.hparUnit.parity s₃.bench.oparUnit.overall) s₃ = .next s₄ ∧
    s₄.bench.assembleUnit.codeword = s₀.encoder.codewordOut ∧
    s₀.callResult = some (.codeword s₄.bench.assembleUnit.codeword)

/-- The five steps of DECODE evaluated one after another on the bench give every port, every net and the outcome that
DECODE gives (41_decoder.md sections 1 and 6).  `data_out` carries what EXTRACT gives, and zeros on a double error, and
`err_pos` and `data_valid` carry what they do, by decision D8; row 2 is decision D5 (notes/assumptions/13.md).  The bench
of stand-alone sub-units is the model's choice (notes/assumptions/7.md). -/
def Obligations.StepsOfDecodeComposeToDecode : Prop :=
  ∀ (s : State) (r : List Bool), r.length = 16 → ∃ s₀ s₁ s₂ s₃ s₄ s₅ : State,
    exec (.decode r) s = .next s₀ ∧
    exec (.syndrome (ofBits 16 r)) s = .next s₁ ∧
    exec (.blockpar (ofBits 16 r)) s₁ = .next s₂ ∧
    exec (.locate s₂.bench.syndromeUnit.S s₂.bench.blockparUnit.B) s₂ = .next s₃ ∧
    exec (.flip (ofBits 16 r) s₃.bench.locateUnit.flipEn s₃.bench.locateUnit.pos) s₃ = .next s₄ ∧
    exec (.extract s₄.bench.flipUnit.fixed) s₄ = .next s₅ ∧
    bitsOf s₀.decoder.codewordIn = r ∧
    s₀.decoder.syndrome = s₅.bench.syndromeUnit.S ∧ s₀.decoder.blockParity = s₅.bench.blockparUnit.B ∧
    s₀.decoder.tag = s₅.bench.locateUnit.tag ∧ s₀.decoder.flipEn = s₅.bench.locateUnit.flipEn ∧
    s₀.decoder.pos = s₅.bench.locateUnit.pos ∧ s₀.decoder.flipMask = s₅.bench.flipUnit.flipMask ∧
    s₀.decoder.status = s₅.bench.locateUnit.status ∧ s₀.decoder.errPos = s₅.bench.locateUnit.errPos ∧
    s₀.decoder.dataValid = s₅.bench.locateUnit.dataValid ∧
    s₀.decoder.codewordCorrected = s₅.bench.flipUnit.fixed ∧
    s₀.decoder.dataOut = (if s₅.bench.locateUnit.status = 2#2 then 0#11 else s₅.bench.extractUnit.d) ∧
    s₀.callResult = some (.decoded (match s₅.bench.locateUnit.tag with
      | .clean => .clean s₅.bench.extractUnit.d
      | .corrected => .corrected s₅.bench.locateUnit.pos s₅.bench.flipUnit.fixed s₅.bench.extractUnit.d
      | .doubleErrorDetected => .doubleErrorDetected))

/-! ### The whole machine -/

/-- Every step keeps every wire at what its rule gives for the present inputs: no output ever depends on an earlier
input or on another block (10_state.md section 1).  The bench of stand-alone sub-units is the model's choice
(notes/assumptions/7.md).  So is the step that takes a request from the queue (notes/assumptions/3.md). -/
def Obligations.StepKeepsOutputsFunctionsOfInputs : Prop :=
  ∀ s t : State, s.Settled → step s = .next t → t.Settled

/-- The state before any call is settled.  The all-zero inputs are the model's choice (notes/assumptions/1.md).  So is
the bench (notes/assumptions/7.md). -/
def Obligations.ResetIsSettled : Prop :=
  State.reset.Settled

/-- Before any call the two blocks carry what all-zero inputs give: the encoder zeros, the decoder `Clean` with valid
all-zero data; nothing is pending and nothing was returned (70_reset_and_hazards.md section 1; the all-zero inputs and
the two fields outside the core are the model's choice, notes/assumptions/1.md, 2.md and 3.md). -/
def Obligations.ResetReadsClean : Prop :=
  State.reset.encoder =
    { dataIn := 0#11, placed := 0#16, hammingParity := 0#4, overallParity := false, codewordOut := 0#16 } ∧
  State.reset.decoder =
    { codewordIn := 0#16, syndrome := 0#4, blockParity := false, tag := .clean, flipEn := false, pos := 0#4,
      flipMask := 0#16, status := 0#2, errPos := 0#4, codewordCorrected := 0#16, dataOut := 0#11,
      dataValid := true } ∧
  State.reset.callResult = none ∧ State.reset.pending = []

/-- On a settled decoder and a settled error locator `status` is never 3; bit 0 is the block parity, bit 1 says a
non-zero syndrome with block parity 0, and `data_valid` says that `status` is not 2 (30_encoding.md section 1; decisions
D5, D7 and D8).  The stand-alone error locator and its ports are the model's (notes/assumptions/7.md and 11.md). -/
def Obligations.StatusCodesOfASettledDecoder : Prop :=
  ∀ s : State, s.Settled →
    s.decoder.status ≠ 3#2 ∧ s.decoder.status.getLsbD 0 = s.decoder.blockParity ∧
    s.decoder.status.getLsbD 1 = (s.decoder.syndrome != 0#4 && !s.decoder.blockParity) ∧
    s.decoder.dataValid = (s.decoder.status != 2#2) ∧ s.bench.locateUnit.status ≠ 3#2

/-- No step faults: `InternalConsistencyFault` is unreachable (60_exceptions.md sections 1 and 3; decision D11).  That a
call of ENCODE or DECODE of a wrong length, which the spec names a failure of the call, does not fault either but
returns `InvalidLength` and goes on is the model's choice (notes/assumptions/4.md), and that a wrong-width sequence at a
sub-unit is a refusal and no fault is so too (notes/assumptions/8.md). -/
def Obligations.NoStepFaults : Prop :=
  ∀ (s : State) (f : Fault), step s ≠ .fault f

/-- A step is safe unless the oldest request presents to a sub-unit a sequence that its wires cannot carry: every
operand of the right length is legal (30_encoding.md section 4).  That ENCODE and DECODE answer a wrong length, which
the spec calls a rejected operand, by going on to a next state is the model's choice (notes/assumptions/4.md), and so is
the refusal by name of a sequence that a sub-unit's wires cannot carry (notes/assumptions/8.md).  The queue is the
model's choice too (notes/assumptions/3.md). -/
def Obligations.StepIsSafeUnlessWidthIsWrong : Prop :=
  ∀ s : State, SafeStep s ↔
    ¬ ∃ (target : Target) (operand : List Bool) (rest : List Request),
      s.pending = .call target operand :: rest ∧ target ≠ .encode ∧ target ≠ .decode ∧
      operand.length ≠ target.width

/-- Only ENCODE moves the encoder's wires and only DECODE the decoder's (20_memory.md section 6).  The clauses on the two
fields outside the core and on the bench are the model's choice: only these two return a value, since the returned value
is kept in State (notes/assumptions/2.md); no instruction touches what the driver will present (notes/assumptions/3.md);
and neither moves the bench, since each named step is evaluated on a sub-unit of its own (notes/assumptions/7.md). -/
def Obligations.EachBlockIsMovedOnlyByItsOwnOperation : Prop :=
  ∀ (i : Instr) (s t : State), exec i s = .next t →
    t.pending = s.pending ∧
    ((∀ seq, i ≠ .encode seq) → t.encoder = s.encoder) ∧
    ((∀ seq, i ≠ .decode seq) → t.decoder = s.decoder) ∧
    ((∀ seq, i ≠ .encode seq) → (∀ seq, i ≠ .decode seq) → t.callResult = s.callResult) ∧
    ((∃ seq, i = .encode seq ∨ i = .decode seq) → t.bench = s.bench)

/-- ENCODE and DECODE in either order leave the same levels on both blocks (20_memory.md section 6).  It ranges over
sequences of every length: that a call of a wrong length goes on to a next state is the model's choice
(notes/assumptions/4.md).  So are the returned value kept in State, which is set aside here (notes/assumptions/2.md),
and the bench and the queue that both leave as they are (notes/assumptions/7.md and 3.md). -/
def Obligations.EncodeAndDecodeCommuteOnTheBlocks : Prop :=
  ∀ (s : State) (a b : List Bool), ∃ t₁ t₂ u₁ u₂ : State,
    exec (.encode a) s = .next t₁ ∧ exec (.decode b) t₁ = .next t₂ ∧
    exec (.decode b) s = .next u₁ ∧ exec (.encode a) u₁ = .next u₂ ∧
    { t₂ with callResult := none } = { u₂ with callResult := none }

/-! ### Layout, channel and text -/

/-- Rule R20: position `p` is in group `G[j]` exactly when bit `j` of `p` is set, so the membership pattern read as a
binary number is `p`. -/
def Obligations.GroupMembershipSpellsThePosition : Prop :=
  ∀ p, p < 16 → (∀ j, j < 4 → (p ∈ group j ↔ p.testBit j = true)) ∧
    p = (if p ∈ group 0 then 1 else 0) + (if p ∈ group 1 then 2 else 0) +
      (if p ∈ group 2 then 4 else 0) + (if p ∈ group 3 then 8 else 0)

/-- Injecting flips at a list of distinct positions is the channel with the pattern that sets exactly those positions,
and its weight is how many they are (20_memory.md section 8, 30_encoding.md section 6). -/
def Obligations.InjectIsTheChannelOfThosePositions : Prop :=
  ∀ (c : Codeword) (ps : List Nat), ps.Nodup → (∀ p ∈ ps, p < 16) → ∃ e : Codeword,
    inject c ps = channel c e ∧ (∀ p, p < 16 → (e.getLsbD p = true ↔ p ∈ ps)) ∧ weight e = ps.length

/-- A word's text has one character a bit, and the character at index `i` is `1` exactly when bit `i` is set and else `0`,
so index 0 stands leftmost; the text is read back as the word's bits, and a text that is read is the text of its bits
(30_encoding.md section 6; decision D4).  That a text with any other character is not read is the model's choice
(notes/assumptions/14.md). -/
def Obligations.TextOfAWordIsReadBack : Prop :=
  (∀ (n : Nat) (w : BitVec n), (renderWord w).toList.length = n ∧
    (∀ i, i < n → (renderWord w).toList[i]? = some (if w.getLsbD i then '1' else '0')) ∧
    parseBits (renderWord w).toList = some (bitsOf w)) ∧
  (∀ bits : List Bool, (renderBits bits).length = bits.length ∧
    (∀ i, i < bits.length → (renderBits bits)[i]? = some (if bits.getD i false then '1' else '0')) ∧
    parseBits (renderBits bits) = some bits) ∧
  (∀ (text : List Char) (bits : List Bool), parseBits text = some bits → renderBits bits = text) ∧
  (∀ text : List Char, (∃ c ∈ text, c ≠ '0' ∧ c ≠ '1') → parseBits text = none)

/-! ### What the error pattern alone decides -/

/-- The number of flipped positions of a word received from a valid codeword decides the row of the decision table, and
the flipped positions the syndrome: none, one, two, an odd number, a greater even number (41_decoder.md section 7, the
error pattern's table; an odd number with syndrome 0 is `Corrected` at position 0 by decision D5, the status codes are
D7, the port `err_pos` D8: notes/assumptions/13.md). -/
def Obligations.ErrorWeightSelectsTheTableRow : Prop :=
  ∀ (s : State) (c e : Codeword), ValidCodeword c → ∃ t : State,
    exec (.decode (bitsOf (channel c e))) s = .next t ∧
    t.decoder.syndrome = errorSyndrome e ∧ t.decoder.blockParity = errorParity e ∧
    (⟨t.decoder.tag, t.decoder.flipEn, t.decoder.pos⟩ : Located) = locatedByError e ∧
    (weight e = 0 → t.decoder.syndrome = 0#4 ∧ t.decoder.blockParity = false ∧ t.decoder.status = 0#2) ∧
    (weight e = 1 → ∃ p, p < 16 ∧ e = 1#16 <<< p ∧ t.decoder.syndrome.toNat = p ∧
      t.decoder.blockParity = true ∧ t.decoder.status = 1#2 ∧ t.decoder.errPos.toNat = p) ∧
    (weight e = 2 → ∃ p q, p < 16 ∧ q < 16 ∧ p ≠ q ∧ e = (1#16 <<< p) ^^^ (1#16 <<< q) ∧
      t.decoder.syndrome.toNat = p ^^^ q ∧ t.decoder.syndrome ≠ 0#4 ∧ t.decoder.blockParity = false ∧
      t.decoder.status = 2#2) ∧
    (weight e % 2 = 1 → t.decoder.blockParity = true ∧ t.decoder.status = 1#2 ∧
      t.decoder.errPos = t.decoder.syndrome) ∧
    (weight e % 2 = 0 → 4 ≤ weight e → t.decoder.blockParity = false ∧
      (ValidCodeword e → t.decoder.syndrome = 0#4 ∧ t.decoder.status = 0#2) ∧
      (¬ ValidCodeword e → t.decoder.syndrome ≠ 0#4 ∧ t.decoder.status = 2#2))

/-- An odd number of flips from three up can give every syndrome, so every position can be the one that is wrongly
inverted (41_decoder.md section 7, the error pattern's table; position 0 by decision D5, the ports by D7 and D8:
notes/assumptions/13.md). -/
def Obligations.OddErrorsReachEverySyndrome : Prop :=
  ∀ (S : Syndrome) (k : Nat), 3 ≤ k → k ≤ 15 → k % 2 = 1 → ∃ e : Codeword, weight e = k ∧
    ∀ (s : State) (c : Codeword), ValidCodeword c → ∃ t : State,
      exec (.decode (bitsOf (channel c e))) s = .next t ∧ t.decoder.syndrome = S ∧
      t.decoder.blockParity = true ∧ t.decoder.status = 1#2 ∧ t.decoder.errPos = S

/-! ### The syndrome generator's two ports -/

/-- Rule R81: with any sequence of 16 bits on `codeword_in`, `syndrome` carries the XOR of the positions of its set bits,
a number from 0 to 15 that the bit at position 0 never changes; the all-zero and the all-one word give 0, a word with the
single bit `p` gives `p`. -/
def Obligations.DecoderDrivesTheSyndromeOfItsInput : Prop :=
  ∀ (s : State) (r : List Bool), r.length = 16 → ∃ t : State, exec (.decode r) s = .next t ∧
    t.decoder.syndrome = ((List.range 16).filter (fun p => r.getD p false)).foldl
      (fun S p => S ^^^ BitVec.ofNat 4 p) 0#4 ∧
    t.decoder.syndrome.toNat ≤ 15 ∧
    (∀ v, ∃ u : State, exec (.decode (r.set 0 v)) s = .next u ∧ u.decoder.syndrome = t.decoder.syndrome) ∧
    (r = List.replicate 16 false → t.decoder.syndrome = 0#4) ∧
    (r = List.replicate 16 true → t.decoder.syndrome = 0#4) ∧
    (∀ p, p < 16 → r = (List.replicate 16 false).set p true → t.decoder.syndrome.toNat = p)

/-- Rule R83: with any sequence of 16 bits on `codeword_in`, `block_parity` carries the XOR of all 16 bits, that is the
number of ones modulo 2; the all-zero and the all-one word give 0, a single set bit, at position 0 too, gives 1. -/
def Obligations.DecoderDrivesTheBlockParityOfItsInput : Prop :=
  ∀ (s : State) (r : List Bool), r.length = 16 → ∃ t : State, exec (.decode r) s = .next t ∧
    t.decoder.blockParity = xorBits r ∧
    t.decoder.blockParity = decide (r.count true % 2 = 1) ∧
    (r = List.replicate 16 false → t.decoder.blockParity = false) ∧
    (r = List.replicate 16 true → t.decoder.blockParity = false) ∧
    (∀ p, p < 16 → r = (List.replicate 16 false).set p true → t.decoder.blockParity = true)
end

