-- ==== Sys2Proof/Laws/Operands.lean ====
section
/-! SUPPORT. What packing, one-bit writes and the XOR over a set do, bit by bit. -/

namespace Sys2Proof.Machine

theorem testBit_natOfBits (bits : List Bool) (i : Nat) :
    (natOfBits bits).testBit i = bits.getD i false := by
  induction bits generalizing i with
  | nil => simp [natOfBits]
  | cons b bs ih =>
    cases i with
    | zero => cases b <;> simp [natOfBits, Nat.testBit_zero, Nat.add_mod]
    | succ i =>
      have : (b.toNat + 2 * natOfBits bs) / 2 = natOfBits bs := by cases b <;> simp only [Bool.toNat_false, Bool.toNat_true] <;> omega
      rw [natOfBits, Nat.testBit_succ, this, ih]
      simp

@[simp] theorem getLsbD_ofBits (n : Nat) (bits : List Bool) (i : Nat) :
    (ofBits n bits).getLsbD i = (decide (i < n) && bits.getD i false) := by
  simp [ofBits, BitVec.getLsbD_ofNat, testBit_natOfBits]

@[simp] theorem getElem_ofBits (n : Nat) (bits : List Bool) (i : Nat) (hi : i < n) :
    (ofBits n bits)[i] = bits.getD i false := by
  rw [← BitVec.getLsbD_eq_getElem, getLsbD_ofBits]; simp [hi]

@[simp] theorem length_bitsOf {n : Nat} (w : BitVec n) : (bitsOf w).length = n := by
  simp [bitsOf]

theorem getD_bitsOf {n : Nat} (w : BitVec n) (i : Nat) : (bitsOf w).getD i false = w.getLsbD i := by
  by_cases h : i < n
  · simp [bitsOf, List.getD_eq_getElem?_getD, h]
  · simp [bitsOf, List.getD_eq_getElem?_getD, h, BitVec.getLsbD_of_ge w i (by omega)]

/-- Packing only reads as many elements as the word has wires. -/
theorem ofBits_append {n : Nat} (w : BitVec n) (rest : List Bool) : ofBits n (bitsOf w ++ rest) = w := by
  apply BitVec.eq_of_getLsbD_eq
  intro i hi
  have h : i < (bitsOf w).length := by simpa using hi
  rw [getLsbD_ofBits, List.getD_append _ _ _ _ h, getD_bitsOf]
  simp [hi]

@[simp] theorem ofBits_bitsOf {n : Nat} (w : BitVec n) : ofBits n (bitsOf w) = w := by
  simpa using ofBits_append w []

theorem bitsOf_ofBits {n : Nat} {bits : List Bool} (h : bits.length = n) : bitsOf (ofBits n bits) = bits := by
  apply List.ext_getElem
  · simp [h]
  · intro i h₁ h₂
    have hi : i < n := by simpa using h₁
    have := getLsbD_ofBits n bits i
    simp only [bitsOf, List.getElem_map, List.getElem_range, this, List.getD_eq_getElem?_getD, h₂, hi,
      List.getElem?_eq_getElem, Option.getD_some, decide_true, Bool.true_and]

theorem bitsOf_injective {n : Nat} {a b : BitVec n} (h : bitsOf a = bitsOf b) : a = b := by
  rw [← ofBits_bitsOf a, h, ofBits_bitsOf]

/-- A sequence is its first wires and the rest. -/
theorem bitsOf_ofBits_append {n : Nat} {bits : List Bool} (h : n ≤ bits.length) :
    bitsOf (ofBits n bits) ++ bits.drop n = bits := by
  have h1 : ofBits n bits = ofBits n (bits.take n) := by
    apply BitVec.eq_of_getLsbD_eq
    intro i hi
    simp [hi]
  rw [h1, bitsOf_ofBits (by simp; omega), List.take_append_drop]

@[simp] theorem drop_bitsOf_append {n : Nat} (w : BitVec n) (rest : List Bool) :
    (bitsOf w ++ rest).drop n = rest := by
  rw [List.drop_append_of_le_length (by simp), List.drop_eq_nil_of_le (by simp)]
  rfl

theorem getD_bitsOf_append {n : Nat} (w : BitVec n) (rest : List Bool) (i : Nat) :
    (bitsOf w ++ rest).getD (n + i) false = rest.getD i false := by
  rw [List.getD_append_right _ _ _ _ (by simp)]
  simp

/-- Position `q` after `w with [p] := v`. -/
theorem getLsbD_setPos (w : Codeword) (p : Nat) (v : Bool) (q : Nat) :
    (setPos w p v).getLsbD q = if q = p ∧ q < 16 then v else w.getLsbD q := by
  by_cases hq : q < 16
  · by_cases h : q = p
    · subst h
      cases v <;> simp [setPos, hq]
    · have : ¬ (q - p = 0 ∧ p ≤ q) := by omega
      by_cases hp : q < p
      · cases v <;> simp [setPos, hq, h, hp]
      · have h0 : q - p ≠ 0 := by omega
        cases v <;> simp [setPos, hq, h, hp, h0]
  · have : ¬ (q = p ∧ q < 16) := by omega
    rw [if_neg this, BitVec.getLsbD_of_ge _ _ (by omega), BitVec.getLsbD_of_ge _ _ (by omega)]

@[simp] theorem getElem_setPos (w : Codeword) (p : Nat) (v : Bool) (q : Nat) (hq : q < 16) :
    (setPos w p v)[q] = if q = p then v else w[q] := by
  simp only [← BitVec.getLsbD_eq_getElem, getLsbD_setPos, hq, and_true]

@[simp] theorem xorBits_nil : xorBits [] = false := rfl

theorem foldl_xor (acc : Bool) (bits : List Bool) :
    bits.foldl (fun acc b => acc ^^ b) acc = (acc ^^ xorBits bits) := by
  induction bits generalizing acc with
  | nil => simp
  | cons b bs ih => simp only [xorBits, List.foldl_cons]; rw [ih, ih]; simp

@[simp] theorem xorBits_cons (b : Bool) (bs : List Bool) : xorBits (b :: bs) = (b ^^ xorBits bs) := by
  simp only [xorBits, List.foldl_cons]; rw [foldl_xor]; simp [xorBits]

/-- The XOR over a set is additive. -/
theorem xorBits_map_xor (l : List Nat) (f g : Nat → Bool) :
    xorBits (l.map fun p => f p ^^ g p) = (xorBits (l.map f) ^^ xorBits (l.map g)) := by
  induction l with
  | nil => rfl
  | cons a l ih => simp [ih, Bool.xor_left_comm]

/-- The positions in increasing order, written out. -/
@[simp] theorem positions_eq : positions = [0, 1, 2, 3, 4, 5, 6, 7, 8, 9, 10, 11, 12, 13, 14, 15] := by decide

end Sys2Proof.Machine
end

