-- ==== Sys2Proof/Laws/Codec.lean ====
section
/-! SUPPORT. What each step of the codec computes, bit by bit, and the algebra the guarantees rest on. -/

namespace Sys2Proof.Machine

/-! ### The layout table's positions, one by one -/

@[simp] theorem opos_eq : opos = 0 := by decide

/-- Data index `i` sits at the (i+1)-th smallest position that is neither 0 nor a power of two (rule R18). -/
@[simp] theorem dpos_values :
    dpos 0 = 3 ∧ dpos 1 = 5 ∧ dpos 2 = 6 ∧ dpos 3 = 7 ∧ dpos 4 = 9 ∧ dpos 5 = 10 ∧ dpos 6 = 11 ∧
      dpos 7 = 12 ∧ dpos 8 = 13 ∧ dpos 9 = 14 ∧ dpos 10 = 15 := by decide

@[simp] theorem ppos_values : ppos 0 = 1 ∧ ppos 1 = 2 ∧ ppos 2 = 4 ∧ ppos 3 = 8 := by decide

@[simp] theorem group_values :
    group 0 = [1, 3, 5, 7, 9, 11, 13, 15] ∧ group 1 = [2, 3, 6, 7, 10, 11, 14, 15] ∧
      group 2 = [4, 5, 6, 7, 12, 13, 14, 15] ∧ group 3 = [8, 9, 10, 11, 12, 13, 14, 15] := by decide

/-! ### The encoder's steps -/

/-- PLACE, position by position (rule R61, written out). -/
theorem placeData_bits (d : DataWord) :
    (placeData d).getLsbD 0 = false ∧
      (placeData d).getLsbD 1 = false ∧
      (placeData d).getLsbD 2 = false ∧
      (placeData d).getLsbD 3 = d.getLsbD 0 ∧
      (placeData d).getLsbD 4 = false ∧
      (placeData d).getLsbD 5 = d.getLsbD 1 ∧
      (placeData d).getLsbD 6 = d.getLsbD 2 ∧
      (placeData d).getLsbD 7 = d.getLsbD 3 ∧
      (placeData d).getLsbD 8 = false ∧
      (placeData d).getLsbD 9 = d.getLsbD 4 ∧
      (placeData d).getLsbD 10 = d.getLsbD 5 ∧
      (placeData d).getLsbD 11 = d.getLsbD 6 ∧
      (placeData d).getLsbD 12 = d.getLsbD 7 ∧
      (placeData d).getLsbD 13 = d.getLsbD 8 ∧
      (placeData d).getLsbD 14 = d.getLsbD 9 ∧
      (placeData d).getLsbD 15 = d.getLsbD 10 := by
  have h : placeData d = (([0, 1, 2, 3, 4, 5, 6, 7, 8, 9, 10] : List Nat).foldl
    (fun w i => setPos w (dpos i) (d.getLsbD i)) 0#16) := rfl
  rw [h]
  simp

/-- HPAR as XORs of placed positions (rule R62, written out). -/
theorem hpar_values (w : Codeword) :
    hpar w 0 = xorBits ([3, 5, 7, 9, 11, 13, 15].map w.getLsbD) ∧
      hpar w 1 = xorBits ([3, 6, 7, 10, 11, 14, 15].map w.getLsbD) ∧
      hpar w 2 = xorBits ([5, 6, 7, 12, 13, 14, 15].map w.getLsbD) ∧
      hpar w 3 = xorBits ([9, 10, 11, 12, 13, 14, 15].map w.getLsbD) := by
  simp [hpar]

theorem getLsbD_hparAll (w : Codeword) (j : Nat) (hj : j < 4) : (hparAll w).getLsbD j = hpar w j := by
  simp [hparAll, Config.hammingCount, hj]

@[simp] theorem getElem_hparAll (w : Codeword) (j : Nat) (hj : j < 4) : (hparAll w)[j] = hpar w j := by
  rw [← BitVec.getLsbD_eq_getElem, getLsbD_hparAll w j hj]

/-- OPAR as an XOR of positions 1 to 15 (rule R63, written out). -/
theorem opar_value (w : Codeword) (P : HammingParity) :
    opar w P = (xorBits ([0, 1, 2, 3].map P.getLsbD) ^^
      xorBits ([3, 5, 6, 7, 9, 10, 11, 12, 13, 14, 15].map w.getLsbD)) := by
  have h : opar w P = (xorBits ([0, 1, 2, 3].map P.getLsbD) ^^
    xorBits ([0, 1, 2, 3, 4, 5, 6, 7, 8, 9, 10].map fun i => w.getLsbD (dpos i))) := rfl
  rw [h]
  simp

/-- ASSEMBLE, position by position (rule R64): the parity bits at 1, 2, 4, 8, the overall bit at 0. -/
theorem getLsbD_assemble (w : Codeword) (P : HammingParity) (overall : Bool) (q : Nat) :
    (assemble w P overall).getLsbD q =
      if q = 8 then P.getLsbD 3 else if q = 4 then P.getLsbD 2 else if q = 2 then P.getLsbD 1
      else if q = 1 then P.getLsbD 0 else if q = 0 then overall else w.getLsbD q := by
  have h : assemble w P overall = (([0, 1, 2, 3] : List Nat).foldl
    (fun c j => setPos c (ppos j) (P.getLsbD j)) (setPos w opos overall)) := rfl
  rw [h]
  simp only [List.foldl_cons, List.foldl_nil, getLsbD_setPos, ppos_values, opos_eq]
  split_ifs <;> first | rfl | omega

/-! ### Syndrome and block parity -/

theorem getLsbD_foldl_positions (r : Codeword) (l : List Nat) (S₀ : Syndrome) (j : Nat) (hj : j < 4) :
    (l.foldl (fun S p => if r.getLsbD p then S ^^^ BitVec.ofNat 4 p else S) S₀).getLsbD j =
      (S₀.getLsbD j ^^ xorBits ((l.filter fun p => p.testBit j).map r.getLsbD)) := by
  induction l generalizing S₀ with
  | nil => simp
  | cons p l ih =>
    rw [List.foldl_cons, ih, List.filter_cons]
    have hb : (BitVec.ofNat 4 p).getLsbD j = p.testBit j := by simp only [BitVec.getLsbD_ofNat, hj,
      decide_true, Bool.true_and]
    cases hr : r.getLsbD p <;> cases hp : p.testBit j <;>
      simp only [hr, hp, hb, if_true, if_false, Bool.false_eq_true, BitVec.getLsbD_xor, List.map_cons,
        xorBits_cons, Bool.false_xor, Bool.xor_false, Bool.xor_assoc]

/-- The syndrome folds over the set positions only. -/
theorem syndromeOf_eq_fold (r : Codeword) :
    ((List.range 16).filter (fun p => r.getLsbD p)).foldl (fun acc p => acc ^^^ BitVec.ofNat 4 p) 0#4 =
      syndromeOf r := by
  rw [List.foldl_filter]; rfl

/-- Bit `j` of the syndrome is the parity of group `G[j]`. -/
theorem getLsbD_syndromeOf (r : Codeword) (j : Nat) (hj : j < 4) :
    (syndromeOf r).getLsbD j = xorBits ((group j).map r.getLsbD) := by
  rw [syndromeOf, getLsbD_foldl_positions r positions 0#4 j hj]
  simp [group]

theorem syndromeOf_xor (a b : Codeword) : syndromeOf (a ^^^ b) = syndromeOf a ^^^ syndromeOf b := by
  apply BitVec.eq_of_getLsbD_eq
  intro j hj
  have h : (fun p => (a ^^^ b).getLsbD p) = fun p => a.getLsbD p ^^ b.getLsbD p := by
    funext p; simp
  rw [BitVec.getLsbD_xor, getLsbD_syndromeOf _ j hj, getLsbD_syndromeOf _ j hj, getLsbD_syndromeOf _ j hj,
    ← xorBits_map_xor, ← h]

theorem blockParityOf_xor (a b : Codeword) :
    blockParityOf (a ^^^ b) = (blockParityOf a ^^ blockParityOf b) := by
  have h : (fun p => (a ^^^ b).getLsbD p) = fun p => a.getLsbD p ^^ b.getLsbD p := by
    funext p; simp
  rw [blockParityOf, blockParityOf, blockParityOf, ← xorBits_map_xor, ← h]

/-- A single set position: the syndrome names it and the block parity is odd. -/
theorem syndromeOf_oneHot (p : Position) :
    syndromeOf (1#16 <<< p.toNat) = p ∧ blockParityOf (1#16 <<< p.toNat) = true := by
  revert p; decide

/-! ### The encoder's output checks to zero -/

/-- ENCODE, position by position, in data bits (rule R64's closed form). -/
theorem encodeData_bits (d : DataWord) :
    (encodeData d).getLsbD 0 = xorBits ([0, 1, 2, 4, 5, 7, 10].map d.getLsbD) ∧
      (encodeData d).getLsbD 1 = xorBits ([0, 1, 3, 4, 6, 8, 10].map d.getLsbD) ∧
      (encodeData d).getLsbD 2 = xorBits ([0, 2, 3, 5, 6, 9, 10].map d.getLsbD) ∧
      (encodeData d).getLsbD 3 = d.getLsbD 0 ∧
      (encodeData d).getLsbD 4 = xorBits ([1, 2, 3, 7, 8, 9, 10].map d.getLsbD) ∧
      (encodeData d).getLsbD 5 = d.getLsbD 1 ∧
      (encodeData d).getLsbD 6 = d.getLsbD 2 ∧
      (encodeData d).getLsbD 7 = d.getLsbD 3 ∧
      (encodeData d).getLsbD 8 = xorBits ([4, 5, 6, 7, 8, 9, 10].map d.getLsbD) ∧
      (encodeData d).getLsbD 9 = d.getLsbD 4 ∧
      (encodeData d).getLsbD 10 = d.getLsbD 5 ∧
      (encodeData d).getLsbD 11 = d.getLsbD 6 ∧
      (encodeData d).getLsbD 12 = d.getLsbD 7 ∧
      (encodeData d).getLsbD 13 = d.getLsbD 8 ∧
      (encodeData d).getLsbD 14 = d.getLsbD 9 ∧
      (encodeData d).getLsbD 15 = d.getLsbD 10 := by
  simp only [encodeData, getLsbD_assemble, getLsbD_hparAll, placeData_bits, hpar_values, opar_value,
    List.map_cons, List.map_nil, xorBits_cons, xorBits_nil, Bool.xor_false, Nat.reduceEqDiff, reduceIte,
    Nat.reduceLT, OfNat.zero_ne_ofNat, OfNat.one_ne_ofNat, zero_ne_one, one_ne_zero, and_true]
  generalize d.getLsbD 0 = d0, d.getLsbD 1 = d1, d.getLsbD 2 = d2, d.getLsbD 3 = d3, d.getLsbD 4 = d4,
    d.getLsbD 5 = d5, d.getLsbD 6 = d6, d.getLsbD 7 = d7, d.getLsbD 8 = d8, d.getLsbD 9 = d9,
    d.getLsbD 10 = d10
  revert d0 d1 d2 d3 d4 d5 d6 d7 d8 d9 d10
  decide

theorem syndromeOf_encodeData (d : DataWord) : syndromeOf (encodeData d) = 0#4 := by
  have hj : ∀ j, j < 4 → j = 0 ∨ j = 1 ∨ j = 2 ∨ j = 3 := by omega
  apply BitVec.eq_of_getLsbD_eq
  intro j h
  rw [getLsbD_syndromeOf _ j h]
  obtain rfl | rfl | rfl | rfl := hj j h <;>
    simp only [group_values, encodeData_bits, List.map_cons, List.map_nil, xorBits_cons, xorBits_nil,
      Bool.xor_false, Bool.xor_self, BitVec.getLsbD_zero]

theorem blockParityOf_encodeData (d : DataWord) : blockParityOf (encodeData d) = false := by
  simp only [blockParityOf, positions_eq, encodeData_bits, List.map_cons, List.map_nil, xorBits_cons,
    xorBits_nil, Bool.xor_false]
  generalize d.getLsbD 0 = d0, d.getLsbD 1 = d1, d.getLsbD 2 = d2, d.getLsbD 3 = d3, d.getLsbD 4 = d4,
    d.getLsbD 5 = d5, d.getLsbD 6 = d6, d.getLsbD 7 = d7, d.getLsbD 8 = d8, d.getLsbD 9 = d9,
    d.getLsbD 10 = d10
  revert d0 d1 d2 d3 d4 d5 d6 d7 d8 d9 d10
  decide

/-! ### The bit-flip unit and the data extractor -/

theorem flipMaskOf_eq (flipEn : Bool) (pos : Position) :
    flipMaskOf flipEn pos = if flipEn then 1#16 <<< pos.toNat else 0#16 := by
  revert flipEn pos; decide

theorem flipBit_disabled (r : Codeword) (pos : Position) : flipBit r false pos = r := by
  simp [flipBit, flipMaskOf_eq]

theorem flipBit_enabled (r : Codeword) (pos : Position) :
    flipBit r true pos = r ^^^ (1#16 <<< pos.toNat) := by
  simp [flipBit, flipMaskOf_eq]

/-- EXTRACT, data index by data index (rule R86, written out). -/
theorem extractData_bits (w : Codeword) :
    (extractData w).getLsbD 0 = w.getLsbD 3 ∧
      (extractData w).getLsbD 1 = w.getLsbD 5 ∧
      (extractData w).getLsbD 2 = w.getLsbD 6 ∧
      (extractData w).getLsbD 3 = w.getLsbD 7 ∧
      (extractData w).getLsbD 4 = w.getLsbD 9 ∧
      (extractData w).getLsbD 5 = w.getLsbD 10 ∧
      (extractData w).getLsbD 6 = w.getLsbD 11 ∧
      (extractData w).getLsbD 7 = w.getLsbD 12 ∧
      (extractData w).getLsbD 8 = w.getLsbD 13 ∧
      (extractData w).getLsbD 9 = w.getLsbD 14 ∧
      (extractData w).getLsbD 10 = w.getLsbD 15 := by
  have h : extractData w = ofBits 11
    ([0, 1, 2, 3, 4, 5, 6, 7, 8, 9, 10].map fun i => w.getLsbD (dpos i)) := rfl
  rw [h]
  simp

theorem bitsOf_extractData (w : Codeword) :
    bitsOf (extractData w) = [3, 5, 6, 7, 9, 10, 11, 12, 13, 14, 15].map w.getLsbD := by
  have h : ∀ d : DataWord, bitsOf d = [0, 1, 2, 3, 4, 5, 6, 7, 8, 9, 10].map d.getLsbD := fun _ => rfl
  rw [h]; simp only [List.map_cons, List.map_nil, extractData_bits]

theorem eq_of_bits₁₁ {a b : DataWord}
    (h : ∀ i, i ∈ [0, 1, 2, 3, 4, 5, 6, 7, 8, 9, 10] → a.getLsbD i = b.getLsbD i) : a = b := by
  apply BitVec.eq_of_getLsbD_eq
  intro i hi
  exact h i (by simp; omega)

theorem eq_of_bits₁₆ {a b : Codeword} (h : ∀ i, i ∈ positions → a.getLsbD i = b.getLsbD i) : a = b := by
  apply BitVec.eq_of_getLsbD_eq
  intro i hi
  exact h i (by simp; omega)

/-- The data bits travel unchanged: EXTRACT undoes ENCODE. -/
theorem extractData_encodeData (d : DataWord) : extractData (encodeData d) = d := by
  apply eq_of_bits₁₁
  simp only [extractData_bits, encodeData_bits, List.forall_mem_cons, List.not_mem_nil, false_imp_iff,
    implies_true, and_self]

/-- A word that checks to zero is the ENCODE of its own data bits. -/
theorem encodeData_extractData {w : Codeword} (hS : syndromeOf w = 0#4) (hB : blockParityOf w = false) :
    encodeData (extractData w) = w := by
  have hj : ∀ j, j < 4 → xorBits ((group j).map w.getLsbD) = false := by
    intro j h
    rw [← getLsbD_syndromeOf w j h, hS]; simp
  have h0 := hj 0 (by decide)
  have h1 := hj 1 (by decide)
  have h2 := hj 2 (by decide)
  have h3 := hj 3 (by decide)
  simp only [group_values, blockParityOf, positions_eq, List.map_cons, List.map_nil, xorBits_cons,
    xorBits_nil, Bool.xor_false] at h0 h1 h2 h3 hB
  have hx : ∀ a b : Bool, (a ^^ b) = false ↔ a = b := by decide
  rw [hx] at h0 h1 h2 h3 hB
  apply eq_of_bits₁₆
  simp only [positions_eq, List.forall_mem_cons, List.not_mem_nil, false_imp_iff, implies_true, and_true,
    encodeData_bits, extractData_bits, List.map_cons, List.map_nil, xorBits_cons, xorBits_nil, Bool.xor_false,
    hB, h0, h1, h2, h3]
  generalize w.getLsbD 3 = d0, w.getLsbD 5 = d1, w.getLsbD 6 = d2, w.getLsbD 7 = d3, w.getLsbD 9 = d4,
    w.getLsbD 10 = d5, w.getLsbD 11 = d6, w.getLsbD 12 = d7, w.getLsbD 13 = d8, w.getLsbD 14 = d9,
    w.getLsbD 15 = d10
  revert d0 d1 d2 d3 d4 d5 d6 d7 d8 d9 d10
  decide

/-! ### The decision table -/

/-- The error locator with block parity 1: rows 2 and 3 merge (rule R84). -/
theorem locate_odd (S : Syndrome) : locate S true = ⟨.corrected, true, S⟩ := by
  revert S; decide

theorem locate_even (S : Syndrome) :
    locate S false = if S = 0#4 then ⟨.clean, false, 0#4⟩ else ⟨.doubleErrorDetected, false, 0#4⟩ := by
  revert S; decide

/-- The position check of step 4 never fails (rule R113). -/
theorem flipInRange_locate (S : Syndrome) (B : Bool) : flipInRange S B (locate S B).pos = true := by
  revert S B; decide

/-- With block parity 1 the word is corrected at its syndrome. -/
theorem decodeWord_odd {r : Codeword} (hB : blockParityOf r = true) :
    decodeWord r = .corrected (syndromeOf r) (r ^^^ (1#16 <<< (syndromeOf r).toNat))
      (extractData (r ^^^ (1#16 <<< (syndromeOf r).toNat))) := by
  simp only [decodeWord, hB, locate_odd, flipBit_enabled]

theorem decodeWord_clean {r : Codeword} (hS : syndromeOf r = 0#4) (hB : blockParityOf r = false) :
    decodeWord r = .clean (extractData r) := by
  simp only [decodeWord, hB, hS, locate_even, reduceIte]

theorem decodeWord_double {r : Codeword} (hS : syndromeOf r ≠ 0#4) (hB : blockParityOf r = false) :
    decodeWord r = .doubleErrorDetected := by
  simp only [decodeWord, hB, hS, locate_even, reduceIte]

/-- A corrected word always checks to zero. -/
theorem corrected_checks {r : Codeword} (hB : blockParityOf r = true) :
    syndromeOf (r ^^^ (1#16 <<< (syndromeOf r).toNat)) = 0#4 ∧
      blockParityOf (r ^^^ (1#16 <<< (syndromeOf r).toNat)) = false := by
  obtain ⟨h₁, h₂⟩ := syndromeOf_oneHot (syndromeOf r)
  rw [syndromeOf_xor, blockParityOf_xor, h₁, h₂, hB]
  simp

/-- Through the channel, syndrome and block parity are those of the error pattern alone. -/
theorem checks_channel (d : DataWord) (e : Codeword) :
    syndromeOf (channel (encodeData d) e) = syndromeOf e ∧
      blockParityOf (channel (encodeData d) e) = blockParityOf e := by
  simp [channel, syndromeOf_xor, blockParityOf_xor, syndromeOf_encodeData, blockParityOf_encodeData]

end Sys2Proof.Machine
end

