-- ==== Sys2Proof/Laws/Channel.lean ====
section
/-! SUPPORT. The weight of an error pattern and the channel's single flips. -/

namespace Sys2Proof.Machine

theorem getLsbD_oneHot (p q : Nat) (hp : p < 16) : (1#16 <<< p).getLsbD q = decide (q = p) := by
  by_cases hq : q < 16
  · by_cases h : q = p
    · subst h; simp [hq]
    · by_cases hlt : q < p
      · simp [hq, h, hlt]
      · have : q - p ≠ 0 := by omega
        simp [hq, h, hlt, this]
  · have : q ≠ p := by omega
    rw [BitVec.getLsbD_of_ge _ _ (by omega)]; simp [this]

/-- Inverting one position is an XOR with its one-hot pattern. -/
theorem setPos_not (w : Codeword) {p : Nat} (hp : p < 16) : setPos w p (!w.getLsbD p) = w ^^^ (1#16 <<< p) := by
  apply BitVec.eq_of_getLsbD_eq
  intro q hq
  rw [getLsbD_setPos, BitVec.getLsbD_xor, getLsbD_oneHot p q hp]
  by_cases h : q = p
  · subst h; simp [hq]
  · simp [h]

/-- The XOR over a list of bits is their number modulo 2. -/
theorem xorBits_map_eq (l : List Nat) (f : Nat → Bool) :
    xorBits (l.map f) = decide (l.countP f % 2 = 1) := by
  induction l with
  | nil => rfl
  | cons a l ih =>
    rw [List.map_cons, xorBits_cons, ih, List.countP_cons]
    cases f a
    · simp
    · rcases Nat.mod_two_eq_zero_or_one (l.countP f) with h | h <;> simp [h, Nat.add_mod]

theorem blockParityOf_eq (r : Codeword) : blockParityOf r = decide (weight r % 2 = 1) :=
  xorBits_map_eq _ _

/-- Counting after one element of a duplicate-free list has changed from true to false. -/
theorem countP_flip {f g : Nat → Bool} {p : Nat} (l : List Nat) (hl : l.Nodup) (hp : p ∈ l) (hf : f p = true)
    (hg : g p = false) (h : ∀ q, q ≠ p → g q = f q) : l.countP g + 1 = l.countP f := by
  induction l with
  | nil => simp at hp
  | cons a l ih =>
    rw [List.nodup_cons] at hl
    rw [List.countP_cons, List.countP_cons]
    rcases List.mem_cons.1 hp with rfl | hm
    · have : l.countP g = l.countP f := List.countP_congr fun q hq => by
        rw [h q (fun e => hl.1 (e ▸ hq))]
      simp [hf, hg, this]
    · have ha : a ≠ p := fun e => hl.1 (e ▸ hm)
      rw [h a ha]
      have := ih hl.2 hm
      omega

theorem weight_clear {e : Codeword} {p : Nat} (hp : p < 16) (h : e.getLsbD p = true) :
    weight (e ^^^ (1#16 <<< p)) + 1 = weight e := by
  refine countP_flip (p := p) _ List.nodup_range (List.mem_range.2 hp) h ?_ ?_
  · simp [h, getLsbD_oneHot p p hp]
  · intro q hq
    simp [getLsbD_oneHot p q hp, hq]

theorem weight_set {e : Codeword} {p : Nat} (hp : p < 16) (h : e.getLsbD p = false) :
    weight (e ^^^ (1#16 <<< p)) = weight e + 1 := by
  have := weight_clear (e := e ^^^ (1#16 <<< p)) hp (by simp [h, getLsbD_oneHot p p hp])
  rw [BitVec.xor_assoc, BitVec.xor_self, BitVec.xor_zero] at this
  exact this.symm

theorem weight_eq_zero {e : Codeword} (h : weight e = 0) : e = 0#16 := by
  apply BitVec.eq_of_getLsbD_eq
  intro q hq
  have := (List.countP_eq_zero.1 h) q (List.mem_range.2 hq)
  simpa using this

/-- A pattern that sets something is one position and a lighter pattern. -/
theorem weight_succ {e : Codeword} {k : Nat} (h : weight e = k + 1) :
    ∃ p e', p < 16 ∧ e'.getLsbD p = false ∧ weight e' = k ∧ e = e' ^^^ (1#16 <<< p) := by
  obtain ⟨p, hm, hp⟩ := List.countP_pos_iff.1 (show 0 < (List.range 16).countP (fun p => e.getLsbD p) by
    show 0 < weight e; omega)
  have hp16 := List.mem_range.1 hm
  refine ⟨p, e ^^^ (1#16 <<< p), hp16, by simp [hp, getLsbD_oneHot p p hp16], ?_, ?_⟩
  · have := weight_clear hp16 hp; omega
  · rw [BitVec.xor_assoc, BitVec.xor_self, BitVec.xor_zero]

/-- Syndrome and block parity of a single position given as a number. -/
theorem checks_oneHot {p : Nat} (hp : p < 16) :
    syndromeOf (1#16 <<< p) = BitVec.ofNat 4 p ∧ blockParityOf (1#16 <<< p) = true := by
  have := syndromeOf_oneHot (BitVec.ofNat 4 p)
  rwa [BitVec.toNat_ofNat, Nat.mod_eq_of_lt hp] at this

/-- Injecting one flip after another. -/
theorem inject_cons (c : Codeword) {p : Nat} (hp : p < 16) (ps : List Nat) :
    inject c (p :: ps) = inject (c ^^^ (1#16 <<< p)) ps := by
  simp only [inject, List.foldl_cons, setPos_not _ hp]

end Sys2Proof.Machine
end

