-- ==== Sys2Proof/Laws/Decode.lean ====
section
/-! SUPPORT. What the decoder of requests accepts. -/

namespace Sys2Proof

/-- The two operations' targets accept every sequence. -/
theorem decode_sequence (bits : List Bool) :
    decode .encode bits = .ok (.encode bits) ∧ decode .decode bits = .ok (.decode bits) :=
  ⟨rfl, rfl⟩

/-- A sub-unit accepts exactly the sequences of its width. -/
theorem decode_wires {t : Target} (he : t ≠ .encode) (hd : t ≠ .decode) (bits : List Bool) :
    decode t bits =
      if bits.length = t.width then .ok (decodeWires t bits) else .error (.wrongWidth t t.width) := by
  cases t <;> first | rfl | contradiction

/-- What an accepted request decodes to, and its length. -/
theorem decode_ok {t : Target} {bits : List Bool} {i : Instr} (h : decode t bits = .ok i) :
    i = decodeWires t bits ∧ (t = .encode ∨ t = .decode ∨ bits.length = t.width) := by
  by_cases he : t = .encode
  · subst he; exact ⟨(Except.ok.inj h).symm, .inl rfl⟩
  by_cases hd : t = .decode
  · subst hd; exact ⟨(Except.ok.inj h).symm, .inr (.inl rfl)⟩
  rw [decode_wires he hd] at h
  split at h
  · exact ⟨(Except.ok.inj h).symm, .inr (.inr ‹_›)⟩
  · exact absurd h (by simp)

end Sys2Proof
end

