-- ==== Sys2Proof/Laws/ErrorPattern.lean ====
section
/-! SUPPORT. The checks of a received word are those of the error pattern alone (rule R89). -/

namespace Sys2Proof.Machine

/-- The XOR of the flipped positions is the pattern's own syndrome. -/
theorem errorSyndrome_eq (e : Codeword) : errorSyndrome e = syndromeOf e :=
  syndromeOf_eq_fold e

theorem errorParity_eq (e : Codeword) : errorParity e = blockParityOf e := by
  rw [blockParityOf_eq, errorParity]
  rcases Nat.mod_two_eq_zero_or_one (weight e) with h | h <;> simp [h]

/-- A word is a valid codeword exactly when both checks are 0. -/
theorem validCodeword_iff_checks (w : Codeword) :
    ValidCodeword w ↔ syndromeOf w = 0#4 ∧ blockParityOf w = false :=
  ⟨fun ⟨d, h⟩ => h ▸ ⟨syndromeOf_encodeData d, blockParityOf_encodeData d⟩,
    fun ⟨hS, hB⟩ => ⟨extractData w, encodeData_extractData hS hB⟩⟩

theorem syndromeOf_channel {c : Codeword} (hc : ValidCodeword c) (e : Codeword) :
    syndromeOf (channel c e) = errorSyndrome e := by
  obtain ⟨d, rfl⟩ := hc
  rw [errorSyndrome_eq, (checks_channel d e).1]

theorem blockParityOf_channel {c : Codeword} (hc : ValidCodeword c) (e : Codeword) :
    blockParityOf (channel c e) = errorParity e := by
  obtain ⟨d, rfl⟩ := hc
  rw [errorParity_eq, (checks_channel d e).2]

/-- A pattern of weight one is one position. -/
theorem weight_eq_one {e : Codeword} (h : weight e = 1) : ∃ p, p < 16 ∧ e = 1#16 <<< p := by
  obtain ⟨p, e', hp, -, h', rfl⟩ := weight_succ h
  exact ⟨p, hp, by rw [weight_eq_zero h', BitVec.zero_xor]⟩

/-- A pattern of weight two is two distinct positions. -/
theorem weight_eq_two {e : Codeword} (h : weight e = 2) :
    ∃ p q, p < 16 ∧ q < 16 ∧ p ≠ q ∧ e = (1#16 <<< p) ^^^ (1#16 <<< q) := by
  obtain ⟨q, e', hq, hclear, h', rfl⟩ := weight_succ h
  obtain ⟨p, hp, rfl⟩ := weight_eq_one h'
  refine ⟨p, q, hp, hq, ?_, rfl⟩
  rintro rfl
  simp [getLsbD_oneHot p p hp] at hclear

/-- Two distinct flips never cancel in the syndrome. -/
theorem errorSyndrome_two {p q : Nat} (hp : p < 16) (hq : q < 16) (hne : p ≠ q) :
    (errorSyndrome ((1#16 <<< p) ^^^ (1#16 <<< q))).toNat = p ^^^ q ∧
      errorSyndrome ((1#16 <<< p) ^^^ (1#16 <<< q)) ≠ 0#4 := by
  have hx : errorSyndrome ((1#16 <<< p) ^^^ (1#16 <<< q)) = BitVec.ofNat 4 p ^^^ BitVec.ofNat 4 q := by
    rw [errorSyndrome_eq, syndromeOf_xor, (checks_oneHot hp).1, (checks_oneHot hq).1]
  have hn : (BitVec.ofNat 4 p ^^^ BitVec.ofNat 4 q).toNat = p ^^^ q := by
    rw [BitVec.toNat_xor, BitVec.toNat_ofNat, BitVec.toNat_ofNat, Nat.mod_eq_of_lt hp, Nat.mod_eq_of_lt hq]
  refine ⟨hx ▸ hn, fun h0 => hne (Nat.xor_eq_zero_iff.1 ?_)⟩
  rw [← hn, ← hx, h0]
  rfl

/-- The error locator on a received word answers what the pattern's weight and syndrome say. -/
theorem locate_channel {c : Codeword} (hc : ValidCodeword c) (e : Codeword) :
    locate (syndromeOf (channel c e)) (blockParityOf (channel c e)) = locatedByError e := by
  rw [syndromeOf_channel hc, blockParityOf_channel hc, locatedByError]
  by_cases h0 : weight e = 0
  · rw [weight_eq_zero h0]; rfl
  cases hB : errorParity e
  · by_cases h2 : weight e = 2
    · obtain ⟨p, q, hp, hq, hne, rfl⟩ := weight_eq_two h2
      simp [h2, locate_even, (errorSyndrome_two hp hq hne).2]
    · simp [h0, h2, locate_even]
  · simp [h0, locate_odd]

end Sys2Proof.Machine
end

