-- ==== Sys2Proof/Laws/State.lean ====
section
/-! SUPPORT. One lemma for each field of State under each update. -/

namespace Sys2Proof.Machine.State

variable (s : State)

@[simp] theorem setEncoder_encoder (b : EncoderBlock) : (s.setEncoder b).encoder = b := rfl
@[simp] theorem setEncoder_decoder (b : EncoderBlock) : (s.setEncoder b).decoder = s.decoder := rfl
@[simp] theorem setEncoder_bench (b : EncoderBlock) : (s.setEncoder b).bench = s.bench := rfl
@[simp] theorem setEncoder_callResult (b : EncoderBlock) : (s.setEncoder b).callResult = s.callResult := rfl
@[simp] theorem setEncoder_pending (b : EncoderBlock) : (s.setEncoder b).pending = s.pending := rfl

@[simp] theorem setDecoder_encoder (b : DecoderBlock) : (s.setDecoder b).encoder = s.encoder := rfl
@[simp] theorem setDecoder_decoder (b : DecoderBlock) : (s.setDecoder b).decoder = b := rfl
@[simp] theorem setDecoder_bench (b : DecoderBlock) : (s.setDecoder b).bench = s.bench := rfl
@[simp] theorem setDecoder_callResult (b : DecoderBlock) : (s.setDecoder b).callResult = s.callResult := rfl
@[simp] theorem setDecoder_pending (b : DecoderBlock) : (s.setDecoder b).pending = s.pending := rfl

@[simp] theorem setBench_encoder (b : Bench) : (s.setBench b).encoder = s.encoder := rfl
@[simp] theorem setBench_decoder (b : Bench) : (s.setBench b).decoder = s.decoder := rfl
@[simp] theorem setBench_bench (b : Bench) : (s.setBench b).bench = b := rfl
@[simp] theorem setBench_callResult (b : Bench) : (s.setBench b).callResult = s.callResult := rfl
@[simp] theorem setBench_pending (b : Bench) : (s.setBench b).pending = s.pending := rfl

@[simp] theorem setResult_encoder (v : CallResult) : (s.setResult v).encoder = s.encoder := rfl
@[simp] theorem setResult_decoder (v : CallResult) : (s.setResult v).decoder = s.decoder := rfl
@[simp] theorem setResult_bench (v : CallResult) : (s.setResult v).bench = s.bench := rfl
@[simp] theorem setResult_callResult (v : CallResult) : (s.setResult v).callResult = some v := rfl
@[simp] theorem setResult_pending (v : CallResult) : (s.setResult v).pending = s.pending := rfl

@[simp] theorem setPending_encoder (q : List Request) : (s.setPending q).encoder = s.encoder := rfl
@[simp] theorem setPending_decoder (q : List Request) : (s.setPending q).decoder = s.decoder := rfl
@[simp] theorem setPending_bench (q : List Request) : (s.setPending q).bench = s.bench := rfl
@[simp] theorem setPending_callResult (q : List Request) : (s.setPending q).callResult = s.callResult := rfl
@[simp] theorem setPending_pending (q : List Request) : (s.setPending q).pending = q := rfl

end Sys2Proof.Machine.State
end

