-- ==== Sys2Proof/Laws/Ops.lean ====
section
/-! SUPPORT. What the shared operations and the meanings can do, said once. -/

namespace Sys2Proof.Machine

/-- The error locator's position check always lets the machine go on. -/
@[simp] theorem checkFlip_next (S : Syndrome) (B : Bool) (t : State) : checkFlip S B t = .next t := by
  simp [checkFlip, flipInRange_locate]

/-- ENCODE on the right length. -/
theorem exec_encode_of_length {seq : List Bool} (h : seq.length = 11) (s : State) :
    exec (.encode seq) s = .next ((s.setEncoder (encoderOn (ofBits 11 seq))).setResult
      (.codeword (encodeData (ofBits 11 seq)))) := by
  simp [exec, execEncode, Config.dataLength, h, encoderOn, encodeData]

/-- ENCODE on any other length. -/
theorem exec_encode_of_length_ne {seq : List Bool} (h : seq.length ≠ 11) (s : State) :
    exec (.encode seq) s = .next (s.setResult (.invalidLength 11)) := by
  simp [exec, execEncode, Config.dataLength, h, raiseInvalidLength]

/-- DECODE on the right length. -/
theorem exec_decode_of_length {seq : List Bool} (h : seq.length = 16) (s : State) :
    exec (.decode seq) s = .next ((s.setDecoder (decoderOn (ofBits 16 seq))).setResult
      (.decoded (decodeWord (ofBits 16 seq)))) := by
  simp [exec, execDecode, Config.codewordLength, h]

/-- DECODE on any other length. -/
theorem exec_decode_of_length_ne {seq : List Bool} (h : seq.length ≠ 16) (s : State) :
    exec (.decode seq) s = .next (s.setResult (.invalidLength 16)) := by
  simp [exec, execDecode, Config.codewordLength, h, raiseInvalidLength]

/-- DECODE of a word's own bits. -/
theorem exec_decode_bitsOf (w : Codeword) (s : State) :
    exec (.decode (bitsOf w)) s = .next ((s.setDecoder (decoderOn w)).setResult (.decoded (decodeWord w))) := by
  rw [exec_decode_of_length (by simp), ofBits_bitsOf]

/-- The decoder's levels with block parity 1 (rows 2 and 3). -/
theorem decoderOn_odd {r : Codeword} (hB : blockParityOf r = true) :
    decoderOn r =
      ⟨r, syndromeOf r, true, .corrected, true, syndromeOf r, flipMaskOf true (syndromeOf r), 1#2, syndromeOf r,
        r ^^^ (1#16 <<< (syndromeOf r).toNat), extractData (r ^^^ (1#16 <<< (syndromeOf r).toNat)), true⟩ := by
  simp only [decoderOn, hB, locate_odd, flipBit_enabled]; rfl

/-- The decoder's levels on a word that checks to zero (row 1). -/
theorem decoderOn_clean {r : Codeword} (hS : syndromeOf r = 0#4) (hB : blockParityOf r = false) :
    decoderOn r = ⟨r, 0#4, false, .clean, false, 0#4, 0#16, 0#2, 0#4, r, extractData r, true⟩ := by
  simp [decoderOn, hS, hB, locate_even, statusCode, dataValidOf, dataOutOf, errPosOf, flipBit_disabled,
    flipMaskOf_eq]

/-- The decoder's levels on a double error (row 4). -/
theorem decoderOn_double {r : Codeword} (hS : syndromeOf r ≠ 0#4) (hB : blockParityOf r = false) :
    decoderOn r =
      ⟨r, syndromeOf r, false, .doubleErrorDetected, false, 0#4, 0#16, 2#2, 0#4, r, 0#11, false⟩ := by
  simp [decoderOn, hS, hB, locate_even, statusCode, dataValidOf, dataOutOf, errPosOf, flipBit_disabled,
    flipMaskOf_eq]

/-- Everything an instruction can do: put settled levels on the encoder or the decoder and return a value, return
`InvalidLength`, or put new levels on the bench. -/
theorem exec_cases (i : Instr) (s : State) :
    (∃ d v, exec i s = .next ((s.setEncoder (encoderOn d)).setResult v)) ∨
    (∃ r v, exec i s = .next ((s.setDecoder (decoderOn r)).setResult v)) ∨
    (∃ n, exec i s = .next (s.setResult (.invalidLength n))) ∨
    (∃ b : Bench, (s.bench.Settled → b.Settled) ∧ exec i s = .next (s.setBench b)) := by
  cases i with
  | encode seq =>
    by_cases h : seq.length = 11
    · exact .inl ⟨_, _, exec_encode_of_length h s⟩
    · exact .inr (.inr (.inl ⟨_, exec_encode_of_length_ne h s⟩))
  | decode seq =>
    by_cases h : seq.length = 16
    · exact .inr (.inl ⟨_, _, exec_decode_of_length h s⟩)
    · exact .inr (.inr (.inl ⟨_, exec_decode_of_length_ne h s⟩))
  | place d =>
    refine .inr (.inr (.inr ⟨{ s.bench with placeUnit := ⟨d, placeData d⟩ }, ?_, rfl⟩))
    rintro ⟨-, h2, h3, h4, h5, h6, h7, h8, h9⟩
    exact ⟨rfl, h2, h3, h4, h5, h6, h7, h8, h9⟩
  | hpar w =>
    refine .inr (.inr (.inr ⟨{ s.bench with hparUnit := ⟨w, hparAll w⟩ }, ?_, rfl⟩))
    rintro ⟨h1, -, h3, h4, h5, h6, h7, h8, h9⟩
    exact ⟨h1, rfl, h3, h4, h5, h6, h7, h8, h9⟩
  | opar w P =>
    refine .inr (.inr (.inr ⟨{ s.bench with oparUnit := ⟨w, P, opar w P⟩ }, ?_, rfl⟩))
    rintro ⟨h1, h2, -, h4, h5, h6, h7, h8, h9⟩
    exact ⟨h1, h2, rfl, h4, h5, h6, h7, h8, h9⟩
  | assemble w P op =>
    refine .inr (.inr (.inr ⟨{ s.bench with assembleUnit := ⟨w, P, op, assemble w P op⟩ }, ?_, rfl⟩))
    rintro ⟨h1, h2, h3, -, h5, h6, h7, h8, h9⟩
    exact ⟨h1, h2, h3, rfl, h5, h6, h7, h8, h9⟩
  | syndrome r =>
    refine .inr (.inr (.inr ⟨{ s.bench with syndromeUnit := ⟨r, syndromeOf r⟩ }, ?_, rfl⟩))
    rintro ⟨h1, h2, h3, h4, -, h6, h7, h8, h9⟩
    exact ⟨h1, h2, h3, h4, rfl, h6, h7, h8, h9⟩
  | blockpar r =>
    refine .inr (.inr (.inr ⟨{ s.bench with blockparUnit := ⟨r, blockParityOf r⟩ }, ?_, rfl⟩))
    rintro ⟨h1, h2, h3, h4, h5, -, h7, h8, h9⟩
    exact ⟨h1, h2, h3, h4, h5, rfl, h7, h8, h9⟩
  | locate S B =>
    refine .inr (.inr (.inr ⟨{ s.bench with locateUnit := locateOn S B }, ?_, checkFlip_next S B _⟩))
    rintro ⟨h1, h2, h3, h4, h5, h6, -, h8, h9⟩
    exact ⟨h1, h2, h3, h4, h5, h6, rfl, h8, h9⟩
  | flip r en pos =>
    refine .inr (.inr (.inr ⟨{ s.bench with flipUnit := flipOn r en pos }, ?_, rfl⟩))
    rintro ⟨h1, h2, h3, h4, h5, h6, h7, -, h9⟩
    exact ⟨h1, h2, h3, h4, h5, h6, h7, rfl, h9⟩
  | extract w =>
    refine .inr (.inr (.inr ⟨{ s.bench with extractUnit := ⟨w, extractData w⟩ }, ?_, rfl⟩))
    rintro ⟨h1, h2, h3, h4, h5, h6, h7, h8, -⟩
    exact ⟨h1, h2, h3, h4, h5, h6, h7, h8, rfl⟩

/-- Every instruction answers a next state. -/
theorem exec_next (i : Instr) (s : State) : ∃ t, exec i s = .next t := by
  rcases exec_cases i s with ⟨_, _, h⟩ | ⟨_, _, h⟩ | ⟨_, h⟩ | ⟨_, _, h⟩ <;> exact ⟨_, h⟩

/-- Everything a step can do: nothing when nothing is presented, run the decoded instruction, or refuse the request. -/
theorem step_cases (s : State) :
    (s.pending = [] ∧ step s = .next s) ∨
    (∃ q rest i, s.pending = q :: rest ∧ decode (s.presented q).1 (s.presented q).2 = .ok i ∧
      step s = exec i (s.setPending rest)) ∨
    (∃ q rest t n, s.pending = q :: rest ∧
      decode (s.presented q).1 (s.presented q).2 = .error (.wrongWidth t n) ∧
      step s = .refused (.wrongOperandWidth t n)) := by
  cases hp : s.pending with
  | nil => exact .inl ⟨rfl, by simp [step, hp]⟩
  | cons q rest =>
    cases hd : decode (s.presented q).1 (s.presented q).2 with
    | ok i => exact .inr (.inl ⟨q, rest, i, rfl, hd, by simp [step, hp, hd]⟩)
    | error e =>
      cases e with
      | wrongWidth t n => exact .inr (.inr ⟨q, rest, t, n, rfl, hd, by simp [step, hp, hd]⟩)

end Sys2Proof.Machine
end

