-- ==== Sys2Proof/Laws/PerInstr.lean ====
section
/-! SUPPORT. One fact for every instruction: a well-formed instruction is presented to its wires with exactly their
number of bits (the widths of spec/opcode_table.json, with the operands beside the word). -/

namespace Sys2Proof.Laws.EncodedWidth

/-- The encoder gives a well-formed instruction exactly its target's width. -/
def Statement (i : Instr) : Prop :=
  i.WellFormed → (Sys2Proof.encode i).2.length = (Sys2Proof.encode i).1.width

theorem encode (seq : List Bool) : Statement (.encode seq) := fun h => h
theorem place (d : DataWord) : Statement (.place d) := fun _ => Machine.length_bitsOf d
theorem hpar (placed : Codeword) : Statement (.hpar placed) := fun _ => Machine.length_bitsOf placed
theorem opar (placed : Codeword) (parity : HammingParity) : Statement (.opar placed parity) := fun _ => by
  simp [Sys2Proof.encode, Target.width]
theorem assemble (placed : Codeword) (parity : HammingParity) (overall : Bool) :
    Statement (.assemble placed parity overall) := fun _ => by
  simp [Sys2Proof.encode, Target.width]
theorem decode (seq : List Bool) : Statement (.decode seq) := fun h => h
theorem syndrome (r : Codeword) : Statement (.syndrome r) := fun _ => Machine.length_bitsOf r
theorem blockpar (r : Codeword) : Statement (.blockpar r) := fun _ => Machine.length_bitsOf r
theorem locate (S : Syndrome) (B : Bool) : Statement (.locate S B) := fun _ => by
  simp [Sys2Proof.encode, Target.width]
theorem flip (r : Codeword) (flipEn : Bool) (pos : Position) : Statement (.flip r flipEn pos) := fun _ => by
  simp [Sys2Proof.encode, Target.width]
theorem extract (w : Codeword) : Statement (.extract w) := fun _ => Machine.length_bitsOf w

end Sys2Proof.Laws.EncodedWidth
end

