-- ==== Sys2Proof/Tests/Slice0.lean ====
section
/-! SUPPORT. Own tests.  Every expected value is from spec/95_test_vectors.md (its id stands in the comment) or from the
encoding tables of spec/30_encoding.md and spec/opcode_table.json; words are written as the spec writes them, index 0
first.  The witnesses at the end meet the hypotheses of the statements that have some. -/

namespace Sys2Proof.Tests

open Sys2Proof.Machine

/-- The sequence that a text stands for. -/
def seqOf (t : String) : List Bool := (parseBits t.toList).getD []

/-- Whether the machine goes on to a state that has the property. -/
def got (o : Host.Outcome State Fault Refusal) (f : State → Bool) : Bool :=
  match o with
  | .next t => f t
  | .fault _ => false
  | .refused _ => false

/-- Whether DECODE of a text returns an outcome, written as the spec writes it. -/
def decodesTo (r : String) (result : String) : Bool :=
  got (exec (.decode (seqOf r)) State.reset) fun t => t.callResult.map renderResult == some result

/-- Whether ENCODE of a text returns a result, written as the spec writes it. -/
def encodesTo (d : String) (result : String) : Bool :=
  got (exec (.encode (seqOf d)) State.reset) fun t => t.callResult.map renderResult == some result

/-! ### Well-formedness: each check refuses an ill-formed operand -/

theorem smoke_encode_of_10_bits_is_ill_formed : ¬ (Instr.encode (List.replicate 10 true)).WellFormed := by decide
theorem smoke_encode_of_12_bits_is_ill_formed : ¬ (Instr.encode (List.replicate 12 true)).WellFormed := by decide
theorem smoke_decode_of_15_bits_is_ill_formed : ¬ (Instr.decode (List.replicate 15 true)).WellFormed := by decide
theorem smoke_decode_of_17_bits_is_ill_formed : ¬ (Instr.decode (List.replicate 17 true)).WellFormed := by decide
theorem smoke_encode_of_11_bits_is_well_formed : (Instr.encode (List.replicate 11 true)).WellFormed := by decide

/-! ### Decoding: an operand of every target, wire by wire -/

/-- 30_encoding.md R40 with 95_test_vectors.md S1's data word. -/
theorem test_decode_ENCODE : decode .encode (seqOf "00110001110") = .ok (.encode (seqOf "00110001110")) := rfl
/-- S1: 00110001110 packs to 0x38C. -/
theorem test_decode_PLACE : decode .place (seqOf "00110001110") = .ok (.place 0x38C#11) := by rfl
/-- S1: PLACE(d) = 0000001100001110, 0x70C0. -/
theorem test_decode_HPAR : decode .hpar (seqOf "0000001100001110") = .ok (.hpar 0x70C0#16) := by rfl
/-- S1: P[0..3] = 0, 1, 1, 1 behind the word. -/
theorem test_decode_OPAR : decode .opar (seqOf "00000011000011100111") = .ok (.opar 0x70C0#16 0xE#4) := by rfl
/-- A word, P = 1, 0, 0, 0 and OP = 1. -/
theorem test_decode_ASSEMBLE :
    decode .assemble (seqOf "000000110000111010001") = .ok (.assemble 0x70C0#16 0x1#4 true) := by rfl
theorem test_decode_DECODE :
    decode .decode (seqOf "0010111110001110") = .ok (.decode (seqOf "0010111110001110")) := rfl
/-- D7: 0010111110001110 packs to 0x71F4. -/
theorem test_decode_SYNDROME : decode .syndrome (seqOf "0010111110001110") = .ok (.syndrome 0x71F4#16) := by rfl
/-- Y4: only position 15. -/
theorem test_decode_BLOCKPAR : decode .blockpar (seqOf "0000000000000001") = .ok (.blockpar 0x8000#16) := by rfl
/-- opcode_table.json LOCATE: S in bits 4..1, B in bit 0. -/
theorem test_decode_LOCATE : decode .locate (seqOf "10001") = .ok (.locate 8#4 true) := by rfl
/-- flip_en, then pos index 0 first. -/
theorem test_decode_FLIP :
    decode .flip (seqOf "001011111000111011010") = .ok (.flip 0x71F4#16 true 5#4) := by rfl
/-- T3: only the parity positions, 0x0117. -/
theorem test_decode_EXTRACT : decode .extract (seqOf "1110100010000000") = .ok (.extract 0x0117#16) := by rfl
theorem test_decode_rejects_by_name :
    decode .syndrome (seqOf "001011111000111") = .error (.wrongWidth .syndrome 16) := by rfl

/-! ### The words of the opcode table, and the step that runs them -/

theorem test_table_word_encode : decodeTableWord 16 0x38C = some (.encode (seqOf "00110001110")) := by decide
theorem test_table_word_hpar : decodeTableWord 16 0x70C0 = some (.hpar 0x70C0#16) := by decide
theorem test_table_word_decode : decodeTableWord 16 0x71F4 = some (.decode (seqOf "0010111110001110")) := by decide
theorem test_table_word_locate : decodeTableWord 8 0x0B = some (.locate 5#4 true) := by decide
/-- P2 through withFetchWord. -/
theorem test_step_runs_fetch_word :
    got (step (State.reset.withFetchWord 16 0x71F4)) (fun t => t.decoder.dataOut == 0x38C#11) = true := by decide

/-! ### ENCODE and its steps -/

/-- E8 and its packed value. -/
theorem test_encode_E8 :
    got (exec (.encode (seqOf "00110001110")) State.reset)
      (fun t => t.encoder.codewordOut == 0x71D4#16 && t.encoder.hammingParity == 0xE#4 &&
        !t.encoder.overallParity) = true := by decide
/-- E4: d[10] alone is in all four groups. -/
theorem test_encode_E4 : encodesTo "00000000001" "1110100010000001" = true := by decide
/-- PLACE of S1. -/
theorem test_place_S1 :
    got (exec (.place 0x38C#11) State.reset) (fun t => t.bench.placeUnit.placed == 0x70C0#16) = true := by decide
/-- E13: P = 1, 0, 0, 0 (placed by R61's written-out map). -/
theorem test_hpar_E13 :
    got (exec (.hpar (placeData 0x249#11)) State.reset) (fun t => t.bench.hparUnit.parity == 1#4) = true := by decide
/-- R62: the parity position itself and the other parity positions do not count. -/
theorem test_hpar_ignores_parity_positions :
    got (exec (.hpar 0x0117#16) State.reset) (fun t => t.bench.hparUnit.parity == 0#4) = true := by decide
/-- E9: P = 0000 and OP = 1. -/
theorem test_opar_E9 :
    got (exec (.opar 0x0068#16 0#4) State.reset) (fun t => t.bench.oparUnit.overall) = true := by decide
/-- E12: 11001100110 gives 0x663C from P = 0, 1, 1, 0 and OP = 0. -/
theorem test_assemble_E12 :
    got (exec (.assemble (placeData 0x333#11) 6#4 false) State.reset)
      (fun t => t.bench.assembleUnit.codeword == 0x663C#16) = true := by decide

/-! ### DECODE and its steps -/

/-- D1. -/
theorem test_decode_D1 : decodesTo "0010101110001110" "Clean(00110001110)" = true := by decide
/-- D2: position 0, decision D5. -/
theorem test_decode_D2 :
    decodesTo "1010101110001110" "Corrected(0, 0010101110001110, 00110001110)" = true := by decide
/-- D30: three flips are miscorrected. -/
theorem test_decode_D30 :
    decodesTo "0011111111001110" "Corrected(15, 0011111111001111, 11111001111)" = true := by decide
/-- D22: the ports of a double error. -/
theorem test_decode_D22_ports :
    got (exec (.decode (seqOf "0010111110101110")) State.reset)
      (fun t => t.decoder.syndrome == 15#4 && !t.decoder.blockParity && t.decoder.status == 2#2 &&
        t.decoder.errPos == 0#4 && t.decoder.codewordCorrected == 0x75F4#16 && t.decoder.dataOut == 0#11 &&
        !t.decoder.dataValid) = true := by decide
/-- D38. -/
theorem test_decode_D38 : decodesTo "0011111111001111" "Clean(11111001111)" = true := by decide
/-- A11. -/
theorem test_decode_A11 :
    decodesTo "1111011101111101" "Corrected(2, 1101011101111101, 11111111101)" = true := by decide
/-- Y16. -/
theorem test_syndrome_Y16 :
    got (exec (.syndrome 0xBEEF#16) State.reset) (fun t => t.bench.syndromeUnit.S == 2#4) = true := by decide
/-- Y3: position 0 is invisible. -/
theorem test_syndrome_Y3 :
    got (exec (.syndrome 0x0001#16) State.reset) (fun t => t.bench.syndromeUnit.S == 0#4) = true := by decide
/-- Y8: five ones. -/
theorem test_blockpar_Y8 :
    got (exec (.blockpar 0x0117#16) State.reset) (fun t => t.bench.blockparUnit.B) = true := by decide
/-- The truth table's row S = 15. -/
theorem test_locate_15 :
    got (exec (.locate 15#4 true) State.reset)
      (fun t => t.bench.locateUnit == ⟨15#4, true, .corrected, true, 15#4, 1#2, 15#4, true⟩) = true := by decide
theorem test_locate_15_double :
    got (exec (.locate 15#4 false) State.reset)
      (fun t => t.bench.locateUnit == ⟨15#4, false, .doubleErrorDetected, false, 0#4, 2#2, 0#4, false⟩) = true := by
  decide
/-- T10: a 1 becomes 0. -/
theorem test_flip_T10 :
    got (exec (.flip 0xFFFF#16 true 8#4) State.reset) (fun t => t.bench.flipUnit.fixed == 0xFEFF#16) = true := by
  decide
/-- T7: not enabled. -/
theorem test_flip_T7 :
    got (exec (.flip 0x71F4#16 false 5#4) State.reset) (fun t => t.bench.flipUnit.fixed == 0x71F4#16) = true := by
  decide
/-- T5. -/
theorem test_extract_T5 :
    got (exec (.extract 0xAAAA#16) State.reset) (fun t => t.bench.extractUnit.d == 0x55B#11) = true := by decide

/-! ### Errors at the sequence-level interface -/

/-- X2. -/
theorem test_encode_X2 : encodesTo "001100011100" "InvalidLength(11)" = true := by decide
/-- X6: a data word given to the decoder. -/
theorem test_decode_X6 : decodesTo "00110001110" "InvalidLength(16)" = true := by decide

/-! ### The channel and the text -/

/-- P6: one flip at position 0, one at 9. -/
theorem test_inject_P6 : inject 0x71D4#16 [0, 9] = 0x73D5#16 := by decide
/-- 30_encoding.md R48's example. -/
theorem test_render_R48 : renderWord 0x38C#11 = "00110001110" := by decide

/-! ### Witnesses: concrete inputs that meet the hypotheses of the statements -/

/-- A state with requests waiting. -/
def waiting (q : List Request) : State := { State.reset with pending := q }

theorem witness_EncodeOfDecodeIsTheRequest :
    decode .flip (seqOf "001011111000111011010") = .ok (.flip 0x71F4#16 true 5#4) := by rfl
theorem witness_StepRunsTheDecodedInstruction :
    (waiting [.call .place (seqOf "00110001110")]).pending = .call .place (seqOf "00110001110") :: [] ∧
    decode .place (seqOf "00110001110") = .ok (.place 0x38C#11) := ⟨rfl, rfl⟩
theorem witness_RelayPresentsTheChannelWordToDecode :
    (waiting [.relay 0x0020#16]).pending = .relay 0x0020#16 :: [] := rfl
theorem witness_NothingPresentedNothingChanges : State.reset.pending = [] := rfl
theorem witness_StepTakesExactlyOneRequest :
    ∃ t, step (waiting [.call .syndrome (seqOf "0010111110001110")]) = .next t := ⟨_, rfl⟩

/-- For every statement about a sequence of 11 bits, and for the linear and the injective one both words. -/
theorem witness_elevenBits :
    (seqOf "00110001110").length = 11 ∧ (seqOf "10101010101").length = 11 ∧
    (List.replicate 11 true).length = 11 := by decide
/-- For every statement about a sequence of 16 bits. -/
theorem witness_sixteenBits : (seqOf "0010111110001110").length = 16 := by decide
/-- EncodeIsDeterministicWithoutSideEffects and EncodeReportsInvalidLength: the nearest wrong lengths and the empty one. -/
theorem witness_notElevenBits :
    (seqOf "0011000111").length ≠ 11 ∧ (seqOf "001100011100").length ≠ 11 ∧ ([] : List Bool).length ≠ 11 := by decide
/-- DecodeReportsInvalidLength. -/
theorem witness_notSixteenBits :
    (seqOf "001010111000111").length ≠ 16 ∧ (seqOf "00101011100011100").length ≠ 16 := by decide
/-- EncodeIsSystematicAndInjective: equal codewords. -/
theorem witness_EncodeIsSystematicAndInjective :
    (encoderOn (ofBits 11 (seqOf "00110001110"))).codewordOut =
      (encoderOn (ofBits 11 (seqOf "00110001110"))).codewordOut := rfl

/-- DecodeCompletes, one clause at a time: rows 1, 2, 3 at both ends, 4 at both ends. -/
theorem witness_DecodeCompletes_rows :
    (syndromeOf 0x71D4#16 = 0#4 ∧ blockParityOf 0x71D4#16 = false) ∧
    blockParityOf 0x71D5#16 = true ∧ blockParityOf 0x71D6#16 = true ∧ blockParityOf 0xF1D4#16 = true ∧
    (syndromeOf 0x71D7#16 ≠ 0#4 ∧ blockParityOf 0x71D7#16 = false) ∧
    (syndromeOf 0xF1D5#16 = 15#4 ∧ blockParityOf 0xF1D5#16 = false) := by decide
/-- SyndromeCompletes and BlockparCompletes: a single position at both ends of the range. -/
theorem witness_singlePosition :
    0 < 16 ∧ (0x0001#16 : Codeword) = 1#16 <<< 0 ∧ 15 < 16 ∧ (0x8000#16 : Codeword) = 1#16 <<< 15 := by decide
/-- LocateCompletes: the four rows. -/
theorem witness_LocateCompletes :
    (0#4 : Syndrome) = 0#4 ∧ (1#4 : Syndrome) ≠ 0#4 ∧ (15#4 : Syndrome) ≠ 0#4 ∧ (true = true) ∧ (false = false) := by
  decide
/-- FlipCompletes: the last clause on a double error. -/
theorem witness_FlipCompletes : (locate 15#4 false).tag = .doubleErrorDetected := by decide
/-- DoubleErrorIsAReportedOutcome: the outcome occurs. -/
theorem witness_DoubleErrorIsAReportedOutcome :
    decodesTo "1110101110001110" "DoubleErrorDetected" = true := by decide
/-- SingleErrorIsCorrected, DoubleErrorIsDetected, TripleErrorIsMiscorrected: positions at both ends. -/
theorem witness_positions :
    0 < 16 ∧ 15 < 16 ∧ 7 < 16 ∧ (0 : Nat) ≠ 15 ∧ (0 : Nat) ≠ 7 ∧ (15 : Nat) ≠ 7 := by decide
/-- NoWrongCorrectionAndNoSilentCorruption and LinkDeliversOrReportsUpToTwoFlips: patterns of weight 0, 1 and 2. -/
theorem witness_patterns : weight 0x0000#16 = 0 ∧ weight 0x8000#16 = 1 ∧ weight 0x8001#16 = 2 := by decide
/-- NoWrongCorrectionAndNoSilentCorruption: a clean and a corrected answer with valid data. -/
theorem witness_validAnswers :
    decodesTo "0010101110001110" "Clean(00110001110)" = true ∧
    decodesTo "0010101110001111" "Corrected(15, 0010101110001110, 00110001110)" = true := by decide
/-- QuadrupleErrorIsCleanOrDetected: D34 and D37. -/
theorem witness_quadruples :
    (weight 0x0096#16 = 4 ∧ syndromeOf 0x0096#16 = 0#4) ∧ (weight 0x0116#16 = 4 ∧ syndromeOf 0x0116#16 ≠ 0#4) := by
  decide
/-- SyndromeAndParityDependOnTheErrorAlone, ValidCodewordsAreThoseThatCheckToZero: two distinct valid codewords. -/
theorem witness_validCodewords :
    ValidCodeword 0x71D4#16 ∧ ValidCodeword 0x0000#16 ∧ (0x71D4#16 : Codeword) ≠ 0x0000#16 :=
  ⟨⟨0x38C#11, by decide⟩, ⟨0#11, by decide⟩, by decide⟩
/-- EachTableCellHoldsOneWordPerDataWord: a word of the cell S = 5, B = 1. -/
theorem witness_EachTableCellHoldsOneWordPerDataWord :
    (∃ t, exec (.decode (bitsOf 0x71F4#16)) State.reset = .next t ∧ t.decoder.syndrome = 5#4 ∧
      t.decoder.blockParity = true) ∧ extractData 0x71F4#16 = 0x38E#11 :=
  ⟨⟨_, rfl, by decide, by decide⟩, by decide⟩
/-- ReportedDataEncodesToTheReportedCodeword: valid data. -/
theorem witness_ReportedDataEncodesToTheReportedCodeword : (decoderOn 0x71F4#16).dataValid = true := by decide
/-- CorrectionAtAParityPositionKeepsTheData: positions 0 and 8 (P4). -/
theorem witness_CorrectionAtAParityPosition :
    (decoderOn 0x71D5#16).status = 1#2 ∧ (decoderOn 0x71D5#16).errPos.toNat ∈ [0, 1, 2, 4, 8] ∧
    (decoderOn 0x8017#16).status = 1#2 ∧ (decoderOn 0x8017#16).errPos.toNat ∈ [0, 1, 2, 4, 8] := by decide
/-- LinkDeliversOrReportsUpToTwoFlips: the queue. -/
theorem witness_LinkDeliversOrReportsUpToTwoFlips :
    (waiting [.call .encode (seqOf "00110001110"), .relay 0x8001#16]).pending =
      .call .encode (seqOf "00110001110") :: .relay 0x8001#16 :: [] := rfl
/-- StepKeepsOutputsFunctionsOfInputs and StatusCodesOfASettledDecoder: a settled state that steps. -/
theorem witness_StepKeepsOutputsFunctionsOfInputs :
    (waiting [.call .encode (seqOf "00110001110")]).Settled ∧
    ∃ t, step (waiting [.call .encode (seqOf "00110001110")]) = .next t := ⟨by decide, _, rfl⟩
/-- EachBlockIsMovedOnlyByItsOwnOperation: a step instruction, which is neither operation, goes on. -/
theorem witness_EachBlockIsMovedOnlyByItsOwnOperation :
    (∃ t, exec (.flip 0x71F4#16 true 5#4) State.reset = .next t) ∧
    (∀ seq, Instr.flip 0x71F4#16 true 5#4 ≠ .encode seq) ∧
    (∀ seq, Instr.flip 0x71F4#16 true 5#4 ≠ .decode seq) := ⟨⟨_, rfl⟩, by simp, by simp⟩
/-- InjectIsTheChannelOfThosePositions. -/
theorem witness_InjectIsTheChannelOfThosePositions : [0, 9, 15].Nodup ∧ ∀ p ∈ [0, 9, 15], p < 16 := by decide
/-- TextOfAWordIsReadBack: a text that is read. -/
theorem witness_TextOfAWordIsReadBack :
    parseBits ['0', '1', '1'] = some [false, true, true] ∧ (0 < 11 ∧ 10 < 11) ∧
    (∃ c ∈ ['0', 'x'], c ≠ '0' ∧ c ≠ '1') :=
  ⟨by decide, by decide, 'x', by simp, by decide, by decide⟩
/-- ErrorWeightSelectsTheTableRow and OddErrorsReachEverySyndrome: a sent word, and a pattern for every row: none, one flip
at both ends, two, three whose XOR is 0, four that are a valid codeword and four that are not, sixteen, fifteen. -/
theorem witness_errorPatterns :
    ValidCodeword 0x71D4#16 ∧ weight 0#16 = 0 ∧ weight 0x0001#16 = 1 ∧ weight 0x8000#16 = 1 ∧ weight 0x8001#16 = 2 ∧
    (weight 0x000E#16 = 3 ∧ errorSyndrome 0x000E#16 = 0#4) ∧
    (weight 0x0096#16 = 4 ∧ ValidCodeword 0x0096#16) ∧ (weight 0x0116#16 = 4 ∧ ¬ ValidCodeword 0x0116#16) ∧
    (weight 0xFFFF#16 = 16 ∧ ValidCodeword 0xFFFF#16) ∧ (3 ≤ 15 ∧ 15 ≤ 15 ∧ 15 % 2 = 1 ∧ 3 % 2 = 1) :=
  ⟨⟨0x38C#11, by decide⟩, by decide, by decide, by decide, by decide, by decide,
    ⟨by decide, ⟨extractData 0x0096#16, by decide⟩⟩,
    ⟨by decide, by rw [validCodeword_iff_checks]; decide⟩, ⟨by decide, ⟨0x7FF#11, by decide⟩⟩, by decide⟩
/-- 41_decoder.md section 7: flips at 1, 2, 4, 8 give S = 15, B = 0 (R93's example). -/
theorem test_errorPattern_R93 :
    errorSyndrome 0x0116#16 = 15#4 ∧ errorParity 0x0116#16 = false ∧
    locatedByError 0x0016#16 = ⟨.corrected, true, 7#4⟩ := by decide
/-- DecoderDrivesTheSyndromeOfItsInput and DecoderDrivesTheBlockParityOfItsInput: the two constant words and single bits
at both ends. -/
theorem witness_syndromeGeneratorPorts :
    (List.replicate 16 false).length = 16 ∧ (List.replicate 16 true).length = 16 ∧ 0 < 16 ∧ 15 < 16 ∧
    ((List.replicate 16 false).set 0 true).length = 16 ∧ ((List.replicate 16 false).set 15 true).length = 16 := by
  decide
/-- StepIsSafeUnlessWidthIsWrong: the refusing case exists. -/
theorem witness_refusal :
    step (waiting [.call .locate (seqOf "1000")]) = .refused (.wrongOperandWidth .locate 5) := by rfl

end Sys2Proof.Tests
end

section
/-! The covering groups as sets of positions (spec 10_state.md rules R19 and R20). -/

namespace Sys2Proof.Machine

/-- Rule R19 as an equivalence, for every position and every group. -/
theorem mem_group_iff (p j : Nat) : p ∈ group j ↔ p < 16 ∧ p.testBit j = true := by
  simp only [group, positions, Config.codewordLength, List.mem_filter, List.mem_range]

/-- A position has four index bits, and they are its binary digits. -/
theorem eq_sum_toNat_testBit {p : Nat} (hp : p < 16) :
    p = (p.testBit 0).toNat + 2 * (p.testBit 1).toNat + 4 * (p.testBit 2).toNat +
      8 * (p.testBit 3).toNat := by
  simp only [Nat.toNat_testBit]
  omega

/-- One digit of the membership pattern is the index bit at its place value. -/
theorem ite_mem_group {p : Nat} (hp : p < 16) (j v : Nat) :
    (if p ∈ group j then v else 0) = v * (p.testBit j).toNat := by
  cases hb : p.testBit j <;> simp [mem_group_iff, hp, hb]

/-- Settles O52: membership in `G[j]` is index bit `j`, and a position is the sum of its binary digits. -/
theorem groupMembershipSpellsThePosition : Obligations.GroupMembershipSpellsThePosition := by
  intro p hp
  constructor
  · intro j _
    simp only [mem_group_iff, hp, true_and]
  · simpa only [ite_mem_group hp, Nat.one_mul] using eq_sum_toNat_testBit hp

end Sys2Proof.Machine
end

section
/-! Every output of ENCODE checks to zero (spec 40_encoder.md rule R65). -/

namespace Sys2Proof.Machine

/-- BLOCKPAR is the XOR of the whole word (rule R83). -/
theorem blockParityOf_eq_xorBits (r : Codeword) : blockParityOf r = xorBits (bitsOf r) := rfl

/-- Syndrome 0 says that every covering group XORs to 0 (rules R81 and R82). -/
theorem xorBits_group_of_syndromeOf_eq_zero {r : Codeword} (hS : syndromeOf r = 0#4) {j : Nat} (hj : j < 4) :
    xorBits ((group j).map r.getLsbD) = false := by
  rw [← getLsbD_syndromeOf r j hj, hS, BitVec.getLsbD_zero]

/-- Block parity 0 says that the number of ones is even. -/
theorem weight_even_of_blockParityOf_eq_false {r : Codeword} (hB : blockParityOf r = false) :
    weight r % 2 = 0 := by
  rw [blockParityOf_eq, decide_eq_false_iff_not] at hB
  exact Nat.mod_two_ne_one.1 hB

/-- Settles O15: the codeword that ENCODE returns and drives has syndrome and block parity 0, and the group XORs, the
whole-word XOR and the number of ones follow from these two. -/
theorem encoderOutputChecksToZero : Obligations.EncoderOutputChecksToZero := by
  intro s seq hlen
  have hS := syndromeOf_encodeData (ofBits 11 seq)
  have hB := blockParityOf_encodeData (ofBits 11 seq)
  refine ⟨_, encodeData (ofBits 11 seq), exec_encode_of_length hlen s, rfl, rfl, hS, hB, ?_, ?_, ?_⟩
  · exact fun _ hj => xorBits_group_of_syndromeOf_eq_zero hS hj
  · rw [← blockParityOf_eq_xorBits, hB]
  · exact weight_even_of_blockParityOf_eq_false hB

end Sys2Proof.Machine
end

section
/-! The round trip on a clean channel, and the two ports of the syndrome generator in a decoder (spec 41_decoder.md rules
R81, R83 and R90). -/

namespace Sys2Proof.Machine

@[simp] theorem encoderOn_codewordOut (d : DataWord) : (encoderOn d).codewordOut = encodeData d := rfl

/-- DECODE of 16 bits puts SYNDROME and BLOCKPAR of the packed word on the decoder's own two ports. -/
theorem exec_decode_checks {seq : List Bool} (hlen : seq.length = 16) (s : State) :
    ∃ t, exec (.decode seq) s = .next t ∧ t.decoder.syndrome = syndromeOf (ofBits 16 seq) ∧
      t.decoder.blockParity = blockParityOf (ofBits 16 seq) := by
  refine ⟨_, exec_decode_of_length hlen s, ?_, ?_⟩ <;>
    simp only [State.setResult_decoder, State.setDecoder_decoder, decoderOn]

/-! ### The clean channel -/

/-- Rule R90 on words: DECODE undoes ENCODE, because the codeword checks to zero and carries its data bits unchanged. -/
theorem decodeWord_encodeData (d : DataWord) : decodeWord (encodeData d) = .clean d := by
  rw [decodeWord_clean (syndromeOf_encodeData d) (blockParityOf_encodeData d), extractData_encodeData]

/-- Settles O30: DECODE of the word that ENCODE drives returns `Clean` with the data word of the sequence. -/
theorem cleanRoundTripReturnsTheData : Obligations.CleanRoundTripReturnsTheData := by
  intro s d hlen
  refine ⟨_, _, exec_encode_of_length hlen s, exec_decode_bitsOf _ _, ofBits 11 d, ?_, bitsOf_ofBits hlen⟩
  simp only [State.setResult_callResult, State.setResult_encoder, State.setEncoder_encoder,
    encoderOn_codewordOut, decodeWord_encodeData]

/-! ### The syndrome of a sequence -/

/-- Rule R81: no covering group holds position 0, so the syndrome does not depend on the bit there. -/
theorem syndromeOf_congr {a b : Codeword} (h : ∀ p, p ≠ 0 → a.getLsbD p = b.getLsbD p) :
    syndromeOf a = syndromeOf b := by
  apply BitVec.eq_of_getLsbD_eq
  intro j hj
  rw [getLsbD_syndromeOf a j hj, getLsbD_syndromeOf b j hj]
  congr 1
  apply List.map_congr_left
  intro p hp
  apply h
  rintro rfl
  simp [mem_group_iff] at hp

theorem syndromeOf_ofBits_set_zero (bits : List Bool) (v : Bool) :
    syndromeOf (ofBits 16 (bits.set 0 v)) = syndromeOf (ofBits 16 bits) := by
  apply syndromeOf_congr
  intro p hp
  simp [List.getD_eq_getElem?_getD, List.getElem?_set_ne hp.symm]

/-- The syndrome folds over the positions of the sequence's set bits. -/
theorem syndromeOf_ofBits (bits : List Bool) :
    syndromeOf (ofBits 16 bits) = ((List.range 16).filter (fun p => bits.getD p false)).foldl
      (fun S p => S ^^^ BitVec.ofNat 4 p) 0#4 := by
  rw [← syndromeOf_eq_fold]
  congr 1
  apply List.filter_congr
  intro p hp
  rw [getLsbD_ofBits, decide_eq_true (List.mem_range.1 hp), Bool.true_and]

/-- A sequence with one set bit packs to that position's one-hot word. -/
theorem ofBits_set_replicate_false {p : Nat} (hp : p < 16) :
    ofBits 16 ((List.replicate 16 false).set p true) = 1#16 <<< p := by
  apply BitVec.eq_of_getLsbD_eq
  intro q hq
  rw [getLsbD_oneHot p q hp, getLsbD_ofBits, decide_eq_true hq, Bool.true_and]
  by_cases h : q = p
  · simp [List.getD_eq_getElem?_getD, h, hp]
  · rw [List.getD_eq_getElem?_getD, List.getElem?_set_ne (Ne.symm h), List.getElem?_replicate_of_lt hq]
    simp [h]

/-- Both checks of the packed sequence are 0 for the two constant words. -/
theorem checks_ofBits_replicate (b : Bool) :
    syndromeOf (ofBits 16 (List.replicate 16 b)) = 0#4 ∧
      blockParityOf (ofBits 16 (List.replicate 16 b)) = false := by
  revert b; decide

/-- Settles O57: the port is SYNDROME of the packed sequence, to which the fold, the independence of position 0, the
constant words and the one-hot words apply. -/
theorem decoderDrivesTheSyndromeOfItsInput : Obligations.DecoderDrivesTheSyndromeOfItsInput := by
  intro s r hlen
  obtain ⟨t, ht, hS, -⟩ := exec_decode_checks hlen s
  refine ⟨t, ht, hS.trans (syndromeOf_ofBits r), Nat.le_of_lt_succ t.decoder.syndrome.isLt, ?_, ?_, ?_, ?_⟩
  · intro v
    obtain ⟨u, hu, huS, -⟩ := exec_decode_checks (seq := r.set 0 v) (by rw [List.length_set, hlen]) s
    exact ⟨u, hu, by rw [huS, hS, syndromeOf_ofBits_set_zero]⟩
  · rintro rfl
    exact hS.trans (checks_ofBits_replicate false).1
  · rintro rfl
    exact hS.trans (checks_ofBits_replicate true).1
  · rintro p hp rfl
    rw [hS, ofBits_set_replicate_false hp, (checks_oneHot hp).1, BitVec.toNat_ofNat]
    exact Nat.mod_eq_of_lt hp

/-! ### The block parity of a sequence -/

theorem count_true_bitsOf (w : Codeword) : (bitsOf w).count true = weight w := by
  rw [bitsOf, List.count_eq_countP, List.countP_map, weight]
  apply List.countP_congr
  intro p _
  simp

/-- Rule R83: BLOCKPAR of the packed sequence is the XOR of its bits. -/
theorem blockParityOf_ofBits {bits : List Bool} (hlen : bits.length = 16) :
    blockParityOf (ofBits 16 bits) = xorBits bits := by
  rw [blockParityOf_eq_xorBits, bitsOf_ofBits hlen]

theorem blockParityOf_ofBits_eq_count {bits : List Bool} (hlen : bits.length = 16) :
    blockParityOf (ofBits 16 bits) = decide (bits.count true % 2 = 1) := by
  rw [blockParityOf_eq, ← count_true_bitsOf, bitsOf_ofBits hlen]

/-- Settles O58: the port is BLOCKPAR of the packed sequence, which is its XOR and the parity of its number of ones; the
constant words and the one-hot words are the corner cases. -/
theorem decoderDrivesTheBlockParityOfItsInput : Obligations.DecoderDrivesTheBlockParityOfItsInput := by
  intro s r hlen
  obtain ⟨t, ht, -, hB⟩ := exec_decode_checks hlen s
  refine ⟨t, ht, hB.trans (blockParityOf_ofBits hlen), hB.trans (blockParityOf_ofBits_eq_count hlen), ?_, ?_, ?_⟩
  · rintro rfl
    exact hB.trans (checks_ofBits_replicate false).2
  · rintro rfl
    exact hB.trans (checks_ofBits_replicate true).2
  · rintro p hp rfl
    rw [hB, ofBits_set_replicate_false hp, (checks_oneHot hp).2]

end Sys2Proof.Machine
end

section
/-! Requests: the decoder and the encoder of requests undo each other, and what the decoder rejects (spec
30_encoding.md sections 1 to 4, 60_exceptions.md section 1). -/

namespace Sys2Proof

open Machine

/-- The decoder accepts what an operation is given and what fits a sub-unit's wires, and reads it off the wires. -/
theorem decode_eq_ok_iff {t : Target} {bits : List Bool} {i : Instr} :
    decode t bits = .ok i ↔
      i = decodeWires t bits ∧ (t = .encode ∨ t = .decode ∨ bits.length = t.width) := by
  refine ⟨decode_ok, ?_⟩
  rintro ⟨rfl, hacc⟩
  by_cases he : t = .encode
  · subst he; rfl
  by_cases hd : t = .decode
  · subst hd; rfl
  rw [decode_wires he hd, if_pos ((hacc.resolve_left he).resolve_left hd)]

theorem decode_eq_error_iff (t : Target) (bits : List Bool) :
    decode t bits = .error (.wrongWidth t t.width) ↔
      t ≠ .encode ∧ t ≠ .decode ∧ bits.length ≠ t.width := by
  constructor
  · intro h
    refine ⟨?_, ?_, ?_⟩
    · rintro rfl; cases h
    · rintro rfl; cases h
    · intro hlen
      rw [decode_eq_ok_iff.2 ⟨rfl, .inr (.inr hlen)⟩] at h
      cases h
  · rintro ⟨he, hd, hlen⟩
    rw [decode_wires he hd, if_neg hlen]

/-- An encoded instruction fits its target: the steps' operands have their widths by typing. -/
theorem accepted_encode (i : Instr) :
    (encode i).1 = .encode ∨ (encode i).1 = .decode ∨ (encode i).2.length = (encode i).1.width := by
  cases i with
  | encode seq => exact .inl rfl
  | decode seq => exact .inr (.inl rfl)
  | place d => exact .inr (.inr (Laws.EncodedWidth.place d trivial))
  | hpar w => exact .inr (.inr (Laws.EncodedWidth.hpar w trivial))
  | opar w P => exact .inr (.inr (Laws.EncodedWidth.opar w P trivial))
  | assemble w P op => exact .inr (.inr (Laws.EncodedWidth.assemble w P op trivial))
  | syndrome r => exact .inr (.inr (Laws.EncodedWidth.syndrome r trivial))
  | blockpar r => exact .inr (.inr (Laws.EncodedWidth.blockpar r trivial))
  | locate S B => exact .inr (.inr (Laws.EncodedWidth.locate S B trivial))
  | flip r en pos => exact .inr (.inr (Laws.EncodedWidth.flip r en pos trivial))
  | extract w => exact .inr (.inr (Laws.EncodedWidth.extract w trivial))

/-- The wires carry back every operand, whether it is the word itself or lies behind it. -/
theorem decodeWires_encode (i : Instr) : decodeWires (encode i).1 (encode i).2 = i := by
  cases i with
  | encode seq => rfl
  | decode seq => rfl
  | place _ | hpar _ | syndrome _ | blockpar _ | extract _ => simp only [encode, decodeWires, ofBits_bitsOf]
  | opar w P => simp only [encode, decodeWires, ofBits_append, drop_bitsOf_append, ofBits_bitsOf]
  | assemble w P op =>
    have hop : (bitsOf w ++ (bitsOf P ++ [op])).getD (16 + (4 + 0)) false = op := by
      rw [getD_bitsOf_append, getD_bitsOf_append]; rfl
    simp only [encode, decodeWires, List.append_assoc, ofBits_append, drop_bitsOf_append]
    rw [hop]
  | locate S B =>
    simp only [encode, decodeWires, List.drop_succ_cons, List.drop_zero, ofBits_bitsOf, List.getD_cons_zero]
  | flip r en pos =>
    have hen : (bitsOf r ++ en :: bitsOf pos).getD (16 + 0) false = en := by
      rw [getD_bitsOf_append]; rfl
    have hpos : (bitsOf r ++ en :: bitsOf pos).drop (16 + 1) = bitsOf pos := by
      rw [← List.drop_drop, drop_bitsOf_append]; rfl
    simp only [encode, decodeWires, ofBits_append]
    rw [hen, hpos, ofBits_bitsOf]

/-- Settles O2: an encoded instruction is accepted, and the wires carry it back. -/
theorem decodeOfEncodeIsTheInstruction : Obligations.DecodeOfEncodeIsTheInstruction := fun i =>
  decode_eq_ok_iff.2 ⟨(decodeWires_encode i).symm, accepted_encode i⟩

/-- The sequence from index `i` on is its element there and what follows. -/
theorem drop_eq_getD_cons {bits : List Bool} {i : Nat} (h : i < bits.length) :
    bits.drop i = bits.getD i false :: bits.drop (i + 1) := by
  rw [List.drop_eq_getElem_cons h, List.getD_eq_getElem _ _ h]

/-- Packing what fits the wires exactly and unpacking it loses no bit. -/
theorem encode_decodeWires {t : Target} {bits : List Bool}
    (hacc : t = .encode ∨ t = .decode ∨ bits.length = t.width) : encode (decodeWires t bits) = (t, bits) := by
  have hw : t ≠ .encode → t ≠ .decode → bits.length = t.width := fun he hd =>
    (hacc.resolve_left he).resolve_left hd
  cases t with
  | encode | decode => rfl
  | place | hpar | syndrome | blockpar | extract =>
    exact congrArg (Prod.mk _) (bitsOf_ofBits (hw (by decide) (by decide)))
  | opar =>
    have hlen : bits.length = 20 := hw (by decide) (by decide)
    have hP : bitsOf (ofBits 4 (bits.drop 16)) = bits.drop 16 := bitsOf_ofBits (by simp [hlen])
    simp only [decodeWires, encode, hP, bitsOf_ofBits_append (n := 16) (bits := bits) (by omega)]
  | assemble =>
    have hlen : bits.length = 21 := hw (by decide) (by decide)
    have hop : bits.drop 20 = [bits.getD 20 false] := by
      rw [drop_eq_getD_cons (by omega), List.drop_eq_nil_of_le (by omega)]
    have hP : bitsOf (ofBits 4 (bits.drop 16)) ++ (bits.drop 16).drop 4 = bits.drop 16 :=
      bitsOf_ofBits_append (by simp [hlen])
    rw [List.drop_drop, hop] at hP
    simp only [decodeWires, encode, List.append_assoc, hP,
      bitsOf_ofBits_append (n := 16) (bits := bits) (by omega)]
  | locate =>
    have hlen : bits.length = 5 := hw (by decide) (by decide)
    have hS : bitsOf (ofBits 4 (bits.drop 1)) = bits.drop 1 := bitsOf_ofBits (by simp [hlen])
    simp only [decodeWires, encode, hS, ← drop_eq_getD_cons (bits := bits) (i := 0) (by omega), List.drop_zero]
  | flip =>
    have hlen : bits.length = 21 := hw (by decide) (by decide)
    have hpos : bitsOf (ofBits 4 (bits.drop 17)) = bits.drop 17 := bitsOf_ofBits (by simp [hlen])
    simp only [decodeWires, encode, hpos, ← drop_eq_getD_cons (bits := bits) (i := 16) (by omega),
      bitsOf_ofBits_append (n := 16) (bits := bits) (by omega)]

/-- Settles O3: an accepted request is what the wires carry, and encoding that gives every bit back. -/
theorem encodeOfDecodeIsTheRequest : Obligations.EncodeOfDecodeIsTheRequest := by
  intro t bits i h
  obtain ⟨rfl, hacc⟩ := decode_eq_ok_iff.1 h
  exact encode_decodeWires hacc

/-- Settles O4: the two equivalences say what is accepted and what is rejected; the widths are those of the table. -/
theorem decoderRejectsExactlyWrongWidths : Obligations.DecoderRejectsExactlyWrongWidths := by
  refine ⟨fun t bits => ⟨?_, decode_eq_error_iff t bits⟩, by decide⟩
  simp only [decode_eq_ok_iff, exists_eq_left]

/-- Settles O1: each written sequence is the encoding of its instruction, which `decode` gives back. -/
theorem writtenOperandsDecodeToTheirInstructions : Obligations.WrittenOperandsDecodeToTheirInstructions :=
  ⟨decodeOfEncodeIsTheInstruction (.encode _), decodeOfEncodeIsTheInstruction (.place 0x38C#11),
    decodeOfEncodeIsTheInstruction (.hpar 0x70C0#16), decodeOfEncodeIsTheInstruction (.opar 0x70C0#16 0xE#4),
    decodeOfEncodeIsTheInstruction (.assemble 0x70C0#16 0xE#4 false),
    decodeOfEncodeIsTheInstruction (.decode _), decodeOfEncodeIsTheInstruction (.syndrome 0x71F4#16),
    decodeOfEncodeIsTheInstruction (.blockpar 0x71F4#16), decodeOfEncodeIsTheInstruction (.locate 5#4 true),
    decodeOfEncodeIsTheInstruction (.flip 0x71F4#16 true 5#4),
    decodeOfEncodeIsTheInstruction (.extract 0x71D4#16)⟩

end Sys2Proof
end

section
/-! One step of the machine: which request it takes, what it keeps, and when it goes on (spec 10_state.md section 1,
20_memory.md sections 3, 6 and 8, 60_exceptions.md sections 1 to 3). -/

namespace Sys2Proof.Machine

/-- A step on a request that decodes runs the instruction after the request has left the queue. -/
theorem step_of_decode {s : State} {q : Request} {rest : List Request} {i : Instr} (hp : s.pending = q :: rest)
    (hd : decode (s.presented q).1 (s.presented q).2 = .ok i) : step s = exec i (s.setPending rest) := by
  simp only [step, hp, hd]

/-- Settles O5: a call presents its own bits to its own target. -/
theorem stepRunsTheDecodedInstruction : Obligations.StepRunsTheDecodedInstruction :=
  fun _ _ _ _ _ hp hd => step_of_decode hp hd

/-- A relay runs DECODE on the channel's word. -/
theorem step_relay {s : State} {e : Codeword} {rest : List Request} (hp : s.pending = .relay e :: rest) :
    step s = exec (.decode (bitsOf (channel s.encoder.codewordOut e))) (s.setPending rest) :=
  step_of_decode hp (decode_sequence _).2

/-- Rule R38: the channel inverts exactly the positions set in the pattern. -/
theorem getLsbD_channel (c e : Codeword) (p : Nat) :
    (channel c e).getLsbD p = if e.getLsbD p then !c.getLsbD p else c.getLsbD p := by
  rw [channel, BitVec.getLsbD_xor]
  cases e.getLsbD p <;> simp

/-- Settles O6: the word presented is the channel's. -/
theorem relayPresentsTheChannelWordToDecode : Obligations.RelayPresentsTheChannelWordToDecode :=
  fun _ _ _ hp => ⟨_, step_relay hp, fun p _ => getLsbD_channel _ _ p⟩

/-- Settles O7: of the three things a step can do, only the idle step has an empty queue. -/
theorem nothingPresentedNothingChanges : Obligations.NothingPresentedNothingChanges := by
  intro s hp
  obtain ⟨-, h⟩ | ⟨_, _, _, hq, -⟩ | ⟨_, _, _, _, hq, -⟩ := step_cases s
  · exact h
  · simp [hp] at hq
  · simp [hp] at hq

/-! ### What an instruction leaves as it is -/

theorem exec_pending {i : Instr} {s t : State} (h : exec i s = .next t) : t.pending = s.pending := by
  obtain ⟨_, _, h'⟩ | ⟨_, _, h'⟩ | ⟨_, h'⟩ | ⟨_, _, h'⟩ := exec_cases i s <;>
    · cases h'.symm.trans h; rfl

/-- A named step changes the bench and nothing else. -/
theorem exec_subunit {i : Instr} (he : ∀ seq, i ≠ .encode seq) (hd : ∀ seq, i ≠ .decode seq) (s : State) :
    ∃ b, exec i s = .next (s.setBench b) := by
  cases i with
  | encode seq => exact absurd rfl (he seq)
  | decode seq => exact absurd rfl (hd seq)
  | locate S B => exact ⟨_, checkFlip_next S B _⟩
  | place | hpar | opar | assemble | syndrome | blockpar | flip | extract => exact ⟨_, rfl⟩

/-- ENCODE, at every length: what it puts on the encoder depends on the encoder at most, and what it returns on the
sequence alone. -/
theorem exec_encode_uniform (seq : List Bool) : ∃ (f : EncoderBlock → EncoderBlock) (v : CallResult),
    ∀ s, exec (.encode seq) s = .next ((s.setEncoder (f s.encoder)).setResult v) := by
  by_cases h : seq.length = 11
  · exact ⟨fun _ => encoderOn (ofBits 11 seq), _, exec_encode_of_length h⟩
  · exact ⟨id, _, exec_encode_of_length_ne h⟩

/-- DECODE, at every length, likewise on the decoder. -/
theorem exec_decode_uniform (seq : List Bool) : ∃ (f : DecoderBlock → DecoderBlock) (v : CallResult),
    ∀ s, exec (.decode seq) s = .next ((s.setDecoder (f s.decoder)).setResult v) := by
  by_cases h : seq.length = 16
  · exact ⟨fun _ => decoderOn (ofBits 16 seq), _, exec_decode_of_length h⟩
  · exact ⟨id, _, exec_decode_of_length_ne h⟩

/-- Settles O50: ENCODE sets the encoder and the result, DECODE the decoder and the result, a named step the bench. -/
theorem eachBlockIsMovedOnlyByItsOwnOperation : Obligations.EachBlockIsMovedOnlyByItsOwnOperation := by
  intro i s t h
  refine ⟨exec_pending h, ?_⟩
  by_cases he : ∃ seq, i = .encode seq
  · obtain ⟨seq, rfl⟩ := he
    obtain ⟨f, v, h'⟩ := exec_encode_uniform seq
    cases (h' s).symm.trans h
    exact ⟨fun hne => absurd rfl (hne seq), fun _ => rfl, fun hne _ => absurd rfl (hne seq), fun _ => rfl⟩
  by_cases hd : ∃ seq, i = .decode seq
  · obtain ⟨seq, rfl⟩ := hd
    obtain ⟨f, v, h'⟩ := exec_decode_uniform seq
    cases (h' s).symm.trans h
    exact ⟨fun _ => rfl, fun hne => absurd rfl (hne seq), fun _ hne => absurd rfl (hne seq), fun _ => rfl⟩
  obtain ⟨b, h'⟩ := exec_subunit (not_exists.1 he) (not_exists.1 hd) s
  cases h'.symm.trans h
  refine ⟨fun _ => rfl, fun _ => rfl, fun _ _ => rfl, ?_⟩
  rintro ⟨seq, rfl | rfl⟩
  · exact absurd ⟨seq, rfl⟩ he
  · exact absurd ⟨seq, rfl⟩ hd

/-- Settles O51: the two set different blocks, and neither reads what the other sets. -/
theorem encodeAndDecodeCommuteOnTheBlocks : Obligations.EncodeAndDecodeCommuteOnTheBlocks := by
  intro s a b
  obtain ⟨f, v, he⟩ := exec_encode_uniform a
  obtain ⟨g, w, hd⟩ := exec_decode_uniform b
  exact ⟨_, _, _, _, he s, hd _, hd s, he _, rfl⟩

/-! ### What every step keeps -/

theorem encoderOn_settled (d : DataWord) : (encoderOn d).Settled := rfl

theorem decoderOn_settled (r : Codeword) : (decoderOn r).Settled := rfl

/-- Every instruction keeps every output a function of the inputs: the block it sets carries what the rules give. -/
theorem exec_settled {i : Instr} {s t : State} (hs : s.Settled) (h : exec i s = .next t) : t.Settled := by
  obtain ⟨hE, hD, hB⟩ := hs
  obtain ⟨d, _, h'⟩ | ⟨r, _, h'⟩ | ⟨_, h'⟩ | ⟨b, hb, h'⟩ := exec_cases i s <;> cases h'.symm.trans h
  · exact ⟨encoderOn_settled d, hD, hB⟩
  · exact ⟨hE, decoderOn_settled r, hB⟩
  · exact ⟨hE, hD, hB⟩
  · exact ⟨hE, hD, hb hB⟩

/-- Settles O44: a step that goes on is idle or is an instruction's meaning. -/
theorem stepKeepsOutputsFunctionsOfInputs : Obligations.StepKeepsOutputsFunctionsOfInputs := by
  intro s t hs h
  obtain ⟨-, h'⟩ | ⟨_, rest, i, -, -, h'⟩ | ⟨_, _, _, _, -, -, h'⟩ := step_cases s
  · cases h'.symm.trans h
    exact hs
  · exact exec_settled (s := s.setPending rest) hs (h'.symm.trans h)
  · cases h'.symm.trans h

/-- Settles O8: the idle step has no request to take, and an instruction keeps the queue it is given. -/
theorem stepTakesExactlyOneRequest : Obligations.StepTakesExactlyOneRequest := by
  intro s t h
  obtain ⟨hp, h'⟩ | ⟨_, rest, i, hp, -, h'⟩ | ⟨_, _, _, _, -, -, h'⟩ := step_cases s
  · cases h'.symm.trans h
    rw [hp, List.tail_nil]
  · rw [hp, List.tail_cons, exec_pending (h'.symm.trans h), State.setPending_pending]
  · cases h'.symm.trans h

/-! ### When a step goes on -/

/-- Settles O48: an idle step and an instruction answer a next state, and a rejected request is a refusal. -/
theorem noStepFaults : Obligations.NoStepFaults := by
  intro s f h
  obtain ⟨-, h'⟩ | ⟨_, rest, i, -, -, h'⟩ | ⟨_, _, _, _, -, -, h'⟩ := step_cases s
  · cases h'.symm.trans h
  · obtain ⟨t, ht⟩ := exec_next i (s.setPending rest)
    cases (h'.trans ht).symm.trans h
  · cases h'.symm.trans h

/-- A step is safe unless the decoder rejects the oldest request. -/
theorem safeStep_iff_not_rejected (s : State) :
    SafeStep s ↔
      ∀ q rest err, s.pending = q :: rest → decode (s.presented q).1 (s.presented q).2 ≠ .error err := by
  obtain ⟨hp, h⟩ | ⟨q, rest, i, hp, hd, h⟩ | ⟨q, rest, t, n, hp, hd, h⟩ := step_cases s
  · exact iff_of_true ⟨s, h⟩ (by simp [hp])
  · refine iff_of_true ?_ ?_
    · obtain ⟨t, ht⟩ := exec_next i (s.setPending rest)
      exact ⟨t, h.trans ht⟩
    · rintro q' rest' err hp' herr
      cases hp.symm.trans hp'
      cases hd.symm.trans herr
  · refine iff_of_false ?_ fun hall => hall q rest _ hp hd
    rintro ⟨t', ht'⟩
    cases h.symm.trans ht'

/-- Settles O49: the decoder rejects no relay, and of the calls exactly those of a wrong width. -/
theorem stepIsSafeUnlessWidthIsWrong : Obligations.StepIsSafeUnlessWidthIsWrong := by
  intro s
  rw [safeStep_iff_not_rejected]
  constructor
  · rintro hall ⟨target, operand, rest, hp, hwrong⟩
    exact hall _ rest _ hp ((decode_eq_error_iff target operand).2 hwrong)
  · rintro hno q rest err hp herr
    cases q with
    | relay e => cases herr
    | call target operand =>
      refine hno ⟨target, operand, rest, hp, ?_⟩
      by_contra hright
      have hacc : target = .encode ∨ target = .decode ∨ operand.length = target.width := by tauto
      cases (decode_eq_ok_iff.2 ⟨rfl, hacc⟩).symm.trans herr

end Sys2Proof.Machine
end

section
/-! ENCODE and its four steps (spec 40_encoder.md sections 1 to 3). -/

namespace Sys2Proof.Machine

/-! ### Words written out -/

/-- A codeword's sequence, position by position. -/
theorem bitsOf_codeword (w : Codeword) : bitsOf w = [w.getLsbD 0, w.getLsbD 1, w.getLsbD 2, w.getLsbD 3, w.getLsbD 4,
    w.getLsbD 5, w.getLsbD 6, w.getLsbD 7, w.getLsbD 8, w.getLsbD 9, w.getLsbD 10, w.getLsbD 11, w.getLsbD 12,
    w.getLsbD 13, w.getLsbD 14, w.getLsbD 15] := rfl

/-- The parity bits' sequence, `P[0]` first. -/
theorem bitsOf_parity (P : HammingParity) : bitsOf P = [P.getLsbD 0, P.getLsbD 1, P.getLsbD 2, P.getLsbD 3] := rfl

/-- A sequence that fits the wires is read off them. -/
theorem getD_eq_getLsbD_ofBits {n : Nat} {bits : List Bool} (hlen : bits.length = n) (i : Nat) :
    bits.getD i false = (ofBits n bits).getLsbD i := by
  rw [← getD_bitsOf, bitsOf_ofBits hlen]

/-- Packing a sequence XORed element by element XORs the packed words. -/
theorem ofBits_zipWith_xor {n : Nat} {a b : List Bool} (ha : a.length = n) (hb : b.length = n) :
    ofBits n (List.zipWith (fun x y => x ^^ y) a b) = ofBits n a ^^^ ofBits n b := by
  apply BitVec.eq_of_getLsbD_eq
  intro i hi
  rw [BitVec.getLsbD_xor]
  simp only [getLsbD_ofBits, hi, decide_true, Bool.true_and, List.getD_eq_getElem?_getD, List.getElem?_zipWith,
    List.getElem?_eq_getElem (ha.symm ▸ hi), List.getElem?_eq_getElem (hb.symm ▸ hi), Option.getD_some]

/-! ### The steps -/

/-- Settles O10, by the map of rule R61 written out. -/
theorem placeCompletes : Obligations.PlaceCompletes := fun _ d =>
  ⟨placeData d, rfl, by simp only [bitsOf_codeword, placeData_bits]⟩

/-- The XOR of the positions that a list holds and a word sets has as bit `j` the parity of those with index bit `j`. -/
theorem getLsbD_foldl_filter (r : Codeword) (l : List Nat) (j : Nat) (hj : j < 4) :
    ((l.filter (fun p => r.getLsbD p)).foldl (fun S p => S ^^^ BitVec.ofNat 4 p) 0#4).getLsbD j =
      xorBits ((l.filter fun p => p.testBit j).map r.getLsbD) := by
  rw [List.foldl_filter, getLsbD_foldl_positions r l 0#4 j hj, BitVec.getLsbD_zero, Bool.false_xor]

/-- A parity tree reads the group without its own parity position, or the data positions of the group (rule R62). -/
theorem parityTree_positions : ∀ j, j < 4 →
    (group j).filter (fun p => p != ppos j) = (List.range 16).filter (fun p => p.testBit j && p != 2 ^ j) ∧
    (group j).filter (fun p => p != ppos j) =
      [3, 5, 6, 7, 9, 10, 11, 12, 13, 14, 15].filter (fun p => p.testBit j) := by decide

/-- Settles O11: the parity tree of a group, and bit by bit the XOR of the set data positions. -/
theorem hparCompletes : Obligations.HparCompletes := by
  intro s w
  refine ⟨hparAll w, rfl, ?_, ?_⟩
  · intro j hj
    rw [getLsbD_hparAll w j hj, hpar, (parityTree_positions j hj).1]
  · apply BitVec.eq_of_getLsbD_eq
    intro j hj
    rw [getLsbD_hparAll w j hj, hpar, (parityTree_positions j hj).2, getLsbD_foldl_filter _ _ _ hj]

/-- ASSEMBLE's sequence (rule R64, written out). -/
theorem bitsOf_assemble (w : Codeword) (P : HammingParity) (overall : Bool) :
    bitsOf (assemble w P overall) = [overall, P.getLsbD 0, P.getLsbD 1, w.getLsbD 3, P.getLsbD 2, w.getLsbD 5,
      w.getLsbD 6, w.getLsbD 7, P.getLsbD 3, w.getLsbD 9, w.getLsbD 10, w.getLsbD 11, w.getLsbD 12, w.getLsbD 13,
      w.getLsbD 14, w.getLsbD 15] := by
  simp only [bitsOf_codeword, getLsbD_assemble, Nat.reduceEqDiff, reduceIte, OfNat.zero_ne_ofNat,
    OfNat.one_ne_ofNat, zero_ne_one, one_ne_zero]

/-- The overall bit is the XOR of what ASSEMBLE puts at the other fifteen positions, so the whole word XORs to 0. -/
theorem xorBits_assemble_opar (w : Codeword) (P : HammingParity) :
    xorBits (bitsOf (assemble w P (opar w P))) = false := by
  have hx : ∀ a b : Bool, (a ^^ b) = false ↔ a = b := by decide
  have hmove : ∀ p0 p1 p2 p3 w3 w5 w6 w7 x : Bool,
      (p0 ^^ (p1 ^^ (p2 ^^ (p3 ^^ (w3 ^^ (w5 ^^ (w6 ^^ (w7 ^^ x)))))))) =
        (p0 ^^ (p1 ^^ (w3 ^^ (p2 ^^ (w5 ^^ (w6 ^^ (w7 ^^ (p3 ^^ x)))))))) := by decide
  rw [bitsOf_assemble, xorBits_cons, hx]
  simp only [opar_value, List.map_cons, List.map_nil, xorBits_cons, xorBits_nil, Bool.xor_false, Bool.xor_assoc]
  exact hmove ..

/-- Settles O12: OPAR as the XOR of rule R63, and the evenness of the assembled word. -/
theorem oparCompletes : Obligations.OparCompletes := by
  intro s w P
  refine ⟨opar w P, rfl, ?_, xorBits_assemble_opar w P⟩
  rw [opar_value]
  simp only [List.map_cons, List.map_nil, xorBits_cons, xorBits_nil, Bool.xor_false, Bool.xor_assoc]

/-- Settles O13. -/
theorem assembleCompletes : Obligations.AssembleCompletes := fun _ w P overall =>
  ⟨assemble w P overall, rfl, bitsOf_assemble w P overall⟩

/-! ### The operation -/

theorem encoderOn_placed (d : DataWord) : (encoderOn d).placed = placeData d := rfl

/-- ENCODE puts the overall bit and the four parity bits at positions 0, 1, 2, 4 and 8 (rule R64). -/
theorem encoderOn_parities (d : DataWord) :
    (encoderOn d).overallParity = (encodeData d).getLsbD 0 ∧
      bitsOf (encoderOn d).hammingParity = [1, 2, 4, 8].map (encodeData d).getLsbD := by
  simp only [encoderOn, encodeData, bitsOf_parity, getLsbD_assemble, List.map_cons, List.map_nil,
    Nat.reduceEqDiff, reduceIte, OfNat.zero_ne_ofNat, OfNat.one_ne_ofNat, zero_ne_one, one_ne_zero, and_self]

/-- Settles O9: the codeword's closed form; the parity nets are its parity positions, and the placed word is PLACE's. -/
theorem encodeCompletes : Obligations.EncodeCompletes := by
  intro s seq hlen
  obtain ⟨hoverall, hparity⟩ := encoderOn_parities (ofBits 11 seq)
  simp only [getD_eq_getLsbD_ofBits hlen]
  refine ⟨encoderOn (ofBits 11 seq), exec_encode_of_length hlen s, bitsOf_ofBits hlen, ?_, ?_, ?_, ?_⟩
  · simp only [encoderOn_placed, bitsOf_codeword, placeData_bits]
  · simp only [hparity, encodeData_bits, List.map_cons, List.map_nil]
  · simp only [hoverall, encodeData_bits, List.map_cons, List.map_nil]
  · simp only [encoderOn_codewordOut, bitsOf_codeword, encodeData_bits, List.map_cons, List.map_nil]

/-- Settles O42: ENCODE composes its steps by definition, and the bench hands each the word before. -/
theorem stepsOfEncodeComposeToEncode : Obligations.StepsOfEncodeComposeToEncode := fun s _ hlen =>
  ⟨_, _, _, _, _, exec_encode_of_length hlen s, rfl, rfl, rfl, rfl, rfl, rfl⟩

/-- Settles O14: the length check is the first thing ENCODE does. -/
theorem encodeReportsInvalidLength : Obligations.EncodeReportsInvalidLength :=
  fun s _ hlen => exec_encode_of_length_ne hlen s

/-- Settles O16: what ENCODE puts on the encoder and returns names the sequence alone. -/
theorem encodeIsDeterministicWithoutSideEffects : Obligations.EncodeIsDeterministicWithoutSideEffects :=
  fun s₁ s₂ seq =>
    ⟨fun hlen => ⟨encoderOn (ofBits 11 seq), exec_encode_of_length hlen s₁, exec_encode_of_length hlen s₂⟩,
      fun hlen => ⟨exec_encode_of_length_ne hlen s₁, exec_encode_of_length_ne hlen s₂⟩⟩

theorem encoderOn_zero : encoderOn 0#11 = ⟨0#11, 0#16, 0#4, false, 0#16⟩ := by decide

/-- Settles O18: eleven zeros pack to the all-zero data word. -/
theorem encodeOfAllZerosIsAllZeros : Obligations.EncodeOfAllZerosIsAllZeros := by
  intro s
  have hword : ofBits 11 (List.replicate 11 false) = 0#11 := by decide
  have hout : encodeData 0#11 = 0#16 := congrArg EncoderBlock.codewordOut encoderOn_zero
  rw [exec_encode_of_length List.length_replicate, hword, encoderOn_zero, hout]
  rfl

/-! ### The code is linear and systematic -/

theorem extractData_xor (a b : Codeword) : extractData (a ^^^ b) = extractData a ^^^ extractData b := by
  apply eq_of_bits₁₁
  simp only [BitVec.getLsbD_xor, extractData_bits, List.forall_mem_cons, List.not_mem_nil, false_imp_iff,
    implies_true, and_self]

/-- A word that checks to zero is the only one with its data bits that does. -/
theorem eq_encodeData_of_checks {w : Codeword} {d : DataWord} (hd : extractData w = d) (hS : syndromeOf w = 0#4)
    (hB : blockParityOf w = false) : w = encodeData d := by
  rw [← hd, encodeData_extractData hS hB]

/-- Rule R67 on words: the XOR of two codewords checks to zero and carries the XOR of the data. -/
theorem encodeData_xor (a b : DataWord) : encodeData (a ^^^ b) = encodeData a ^^^ encodeData b := by
  symm
  apply eq_encodeData_of_checks
  · rw [extractData_xor, extractData_encodeData, extractData_encodeData]
  · rw [syndromeOf_xor, syndromeOf_encodeData, syndromeOf_encodeData, BitVec.xor_self]
  · rw [blockParityOf_xor, blockParityOf_encodeData, blockParityOf_encodeData, Bool.xor_self]

/-- Settles O17. -/
theorem encodeIsLinear : Obligations.EncodeIsLinear := by
  intro s a b ha hb
  have hx : (List.zipWith (fun x y => x ^^ y) a b).length = 11 := by rw [List.length_zipWith, ha, hb, Nat.min_self]
  refine ⟨_, _, _, exec_encode_of_length ha s, exec_encode_of_length hb s, exec_encode_of_length hx s, ?_⟩
  simp only [State.setResult_encoder, State.setEncoder_encoder, encoderOn_codewordOut, ofBits_zipWith_xor ha hb,
    encodeData_xor]

/-- Settles O19: EXTRACT reads the data positions and undoes ENCODE. -/
theorem encodeIsSystematicAndInjective : Obligations.EncodeIsSystematicAndInjective := by
  intro s a b ha hb
  refine ⟨_, _, exec_encode_of_length ha s, exec_encode_of_length hb s, ?_, ?_⟩
  · simp only [State.setResult_encoder, State.setEncoder_encoder, encoderOn_codewordOut]
    rw [← bitsOf_extractData, extractData_encodeData, bitsOf_ofBits ha]
  · simp only [State.setResult_encoder, State.setEncoder_encoder, encoderOn_codewordOut]
    intro h
    have hdata : ofBits 11 a = ofBits 11 b := by
      rw [← extractData_encodeData (ofBits 11 a), h, extractData_encodeData]
    rw [← bitsOf_ofBits ha, hdata, bitsOf_ofBits hb]

end Sys2Proof.Machine
end

section
/-! DECODE and its five steps (spec 41_decoder.md sections 1 to 6, 60_exceptions.md section 1). -/

namespace Sys2Proof.Machine

/-! ### The syndrome generator -/

/-- Settles O21: the fold over the set positions, its independence of position 0, the constant and the one-hot words. -/
theorem syndromeCompletes : Obligations.SyndromeCompletes := by
  intro s r
  refine ⟨syndromeOf r, rfl, (syndromeOf_eq_fold r).symm, Nat.le_of_lt_succ (syndromeOf r).isLt, ?_, ?_, ?_, ?_⟩
  · intro v
    have hS : syndromeOf (setPos r 0 v) = syndromeOf r := syndromeOf_congr fun p hp => by
      rw [getLsbD_setPos, if_neg fun h => hp h.1]
    rw [← hS]
    rfl
  · rintro rfl; decide
  · rintro rfl; decide
  · rintro p hp rfl
    rw [(checks_oneHot hp).1, BitVec.toNat_ofNat]
    exact Nat.mod_eq_of_lt hp

/-- Settles O22: the XOR of the bits is the parity of their number. -/
theorem blockparCompletes : Obligations.BlockparCompletes := by
  intro s r
  refine ⟨blockParityOf r, rfl, blockParityOf_eq_xorBits r, blockParityOf_eq r, ?_, ?_, ?_⟩
  · rintro rfl; decide
  · rintro rfl; decide
  · rintro p hp rfl
    exact (checks_oneHot hp).2

/-- Masking a word before XORing its bits XORs the bits that the mask sets. -/
theorem xorBits_map_and (l : List Nat) (f g : Nat → Bool) :
    xorBits (l.map fun p => f p && g p) = xorBits ((l.filter g).map f) := by
  induction l with
  | nil => rfl
  | cons p l ih =>
    cases hg : g p <;> simp [ih, hg]

theorem xorBits_bitsOf_and (w m : Codeword) :
    xorBits (bitsOf (w &&& m)) = xorBits ((positions.filter m.getLsbD).map w.getLsbD) := by
  have h : (w &&& m).getLsbD = fun p => w.getLsbD p && m.getLsbD p := by
    funext p; rw [BitVec.getLsbD_and]
  rw [bitsOf, h]
  exact xorBits_map_and _ _ _

/-- The masks of 30_encoding.md section 1 set exactly the positions of the covering groups. -/
theorem positions_filter_masks :
    positions.filter (0xAAAA#16).getLsbD = group 0 ∧ positions.filter (0xCCCC#16).getLsbD = group 1 ∧
      positions.filter (0xF0F0#16).getLsbD = group 2 ∧ positions.filter (0xFF00#16).getLsbD = group 3 := by decide

/-- Settles O27: bit `j` of SYNDROME is the parity of the group, which each mask selects. -/
theorem syndromeBitsAreGroupParities : Obligations.SyndromeBitsAreGroupParities := by
  intro s seq hlen
  obtain ⟨hm0, hm1, hm2, hm3⟩ := positions_filter_masks
  refine ⟨_, exec_decode_of_length hlen s, ?_, ?_, ?_, ?_, ?_⟩
  · intro j hj
    simp only [getD_eq_getLsbD_ofBits hlen]
    exact getLsbD_syndromeOf _ j hj
  · rw [xorBits_bitsOf_and, hm0]; exact getLsbD_syndromeOf _ 0 (by decide)
  · rw [xorBits_bitsOf_and, hm1]; exact getLsbD_syndromeOf _ 1 (by decide)
  · rw [xorBits_bitsOf_and, hm2]; exact getLsbD_syndromeOf _ 2 (by decide)
  · rw [xorBits_bitsOf_and, hm3]; exact getLsbD_syndromeOf _ 3 (by decide)

/-! ### The error locator, the bit-flip unit and the data extractor -/

/-- Settles O23: the rows of the decision table, of which block parity 1 merges two. -/
theorem locateCompletes : Obligations.LocateCompletes := by
  intro s S B
  refine ⟨locateOn S B, checkFlip_next S B _, ?_, ?_, ?_, ?_⟩
  · rintro rfl rfl; rfl
  · rintro rfl rfl; rfl
  · rintro - rfl
    simp only [locateOn, locate_odd]
    rfl
  · rintro hS rfl
    simp only [locateOn, locate_even, if_neg hS]
    rfl

/-- Inverting position `p` by XOR inverts the bit there and keeps every other. -/
theorem getLsbD_xor_oneHot (w : Codeword) {p : Nat} (hp : p < 16) (q : Nat) :
    (w ^^^ (1#16 <<< p)).getLsbD q = if q = p then !w.getLsbD q else w.getLsbD q := by
  rw [BitVec.getLsbD_xor, getLsbD_oneHot p q hp]
  by_cases h : q = p <;> simp [h]

theorem getLsbD_flipMaskOf (flipEn : Bool) (pos : Position) (p : Nat) :
    (flipMaskOf flipEn pos).getLsbD p = (flipEn && p == pos.toNat) := by
  rw [flipMaskOf_eq]
  cases flipEn
  · simp
  · rw [if_pos rfl, getLsbD_oneHot _ _ pos.isLt, Bool.true_and]; rfl

/-- Settles O24: the mask is one-hot or zero, and the fixed word is the received one XOR the mask. -/
theorem flipCompletes : Obligations.FlipCompletes := by
  refine ⟨?_, ?_⟩
  · intro s r flipEn pos
    refine ⟨flipMaskOf flipEn pos, flipBit r flipEn pos, rfl, fun p _ => getLsbD_flipMaskOf flipEn pos p, rfl,
      ?_, ?_, ?_⟩
    · rintro rfl p -
      rw [flipBit_enabled, getLsbD_xor_oneHot r pos.isLt]
    · rintro rfl
      exact flipBit_disabled r pos
    · rintro rfl p hp
      have hp0 : (p == (0#4).toNat) = false := by revert p; decide
      rw [flipBit, BitVec.getLsbD_xor, getLsbD_flipMaskOf, hp0, Bool.and_false, Bool.xor_false]
  · intro S B htag
    cases B with
    | false => rw [locate_even]; split <;> rfl
    | true => rw [locate_odd] at htag; cases htag

/-- Settles O25. -/
theorem extractCompletes : Obligations.ExtractCompletes := fun _ w => ⟨extractData w, rfl, bitsOf_extractData w⟩

/-! ### The operation -/

/-- The rows of the decision table, rows 2 and 3 as one, cover every received word. -/
theorem decisionTable_rows (r : Codeword) :
    (syndromeOf r = 0#4 ∧ blockParityOf r = false) ∨ blockParityOf r = true ∨
      (syndromeOf r ≠ 0#4 ∧ blockParityOf r = false) := by
  cases blockParityOf r
  · rcases eq_or_ne (syndromeOf r) 0#4 with h | h
    · exact .inl ⟨h, rfl⟩
    · exact .inr (.inr ⟨h, rfl⟩)
  · exact .inr (.inl rfl)

@[simp] theorem decoderOn_syndrome (r : Codeword) : (decoderOn r).syndrome = syndromeOf r := by simp only [decoderOn]
@[simp] theorem decoderOn_blockParity (r : Codeword) : (decoderOn r).blockParity = blockParityOf r := by
  simp only [decoderOn]

/-- Settles O20: the levels and the outcome of each row, on the packed sequence. -/
theorem decodeCompletes : Obligations.DecodeCompletes := by
  intro s seq hlen
  refine ⟨decoderOn (ofBits 16 seq), decodeWord (ofBits 16 seq), exec_decode_of_length hlen s, bitsOf_ofBits hlen,
    syndromeOf_ofBits seq, blockParityOf_ofBits hlen, ?_, ?_, ?_⟩
  · rintro ⟨hS, hB⟩
    rw [decoderOn_clean hS hB, decodeWord_clean hS hB]
    exact ⟨rfl, rfl, rfl, rfl, rfl, rfl, rfl, rfl, bitsOf_extractData _, rfl⟩
  · intro hB
    rw [decoderOn_odd hB, decodeWord_odd hB]
    exact ⟨rfl, rfl, rfl, flipMaskOf_eq true _, rfl, rfl,
      fun p _ => getLsbD_xor_oneHot _ (BitVec.isLt _) p, rfl, bitsOf_extractData _, rfl⟩
  · rintro ⟨hS, hB⟩
    rw [decoderOn_double hS hB, decodeWord_double hS hB]
    exact ⟨rfl, rfl, rfl, rfl, rfl, rfl, rfl, rfl, rfl, rfl⟩

/-- Settles O26: the length check is the first thing DECODE does. -/
theorem decodeReportsInvalidLength : Obligations.DecodeReportsInvalidLength :=
  fun s _ hlen => exec_decode_of_length_ne hlen s

/-- Settles O28: what DECODE puts on the decoder and returns names the sequence alone. -/
theorem decodeIsDeterministicAndStateless : Obligations.DecodeIsDeterministicAndStateless :=
  fun s₁ s₂ seq hlen => ⟨decoderOn (ofBits 16 seq), decodeWord (ofBits 16 seq), exec_decode_of_length hlen s₁,
    exec_decode_of_length hlen s₂⟩

/-- `DoubleErrorDetected` is row 4 and no other. -/
theorem decodeWord_eq_double_iff (r : Codeword) :
    decodeWord r = .doubleErrorDetected ↔ syndromeOf r ≠ 0#4 ∧ blockParityOf r = false := by
  obtain ⟨hS, hB⟩ | hB | ⟨hS, hB⟩ := decisionTable_rows r
  · simp [decodeWord_clean hS hB, hS]
  · simp [decodeWord_odd hB, hB]
  · simp [decodeWord_double hS hB, hS, hB]

/-- `Corrected` is block parity 1, and carries the syndrome and the word corrected there. -/
theorem decodeWord_eq_corrected_iff (r : Codeword) (p : Position) (c : Codeword) (w : DataWord) :
    decodeWord r = .corrected p c w ↔ blockParityOf r = true ∧ p = syndromeOf r ∧
      c = r ^^^ (1#16 <<< (syndromeOf r).toNat) ∧ w = extractData c := by
  obtain ⟨hS, hB⟩ | hB | ⟨hS, hB⟩ := decisionTable_rows r
  · simp [decodeWord_clean hS hB, hB]
  · rw [decodeWord_odd hB, DecodeOutcome.corrected.injEq]
    constructor
    · rintro ⟨rfl, rfl, rfl⟩; exact ⟨hB, rfl, rfl, rfl⟩
    · rintro ⟨-, rfl, rfl, rfl⟩; exact ⟨rfl, rfl, rfl⟩
  · simp [decodeWord_double hS hB, hB]

/-- `Clean` is row 1, and carries the received data bits. -/
theorem decodeWord_eq_clean_iff (r : Codeword) (w : DataWord) :
    decodeWord r = .clean w ↔ (syndromeOf r = 0#4 ∧ blockParityOf r = false) ∧ w = extractData r := by
  obtain ⟨hS, hB⟩ | hB | ⟨hS, hB⟩ := decisionTable_rows r
  · simp [decodeWord_clean hS hB, hS, hB, eq_comm]
  · simp [decodeWord_odd hB, hB]
  · simp [decodeWord_double hS hB, hS]

/-- Returning an outcome puts that outcome in the returned value. -/
theorem setResult_decoded_iff (s : State) (o o' : DecodeOutcome) :
    (s.setResult (.decoded o)).callResult = some (.decoded o') ↔ o = o' := by
  rw [State.setResult_callResult, Option.some_inj, CallResult.decoded.injEq]

/-- Settles O29: the outcome is row 4's, and the next call overwrites what this one set. -/
theorem doubleErrorIsAReportedOutcome : Obligations.DoubleErrorIsAReportedOutcome := by
  intro s seq hlen
  refine ⟨_, exec_decode_of_length hlen s, ?_, ?_, ?_⟩
  · rw [setResult_decoded_iff]
    exact decodeWord_eq_double_iff _
  · rw [setResult_decoded_iff, decodeWord_eq_double_iff]
    rintro ⟨hS, hB⟩
    simp only [State.setResult_decoder, State.setDecoder_decoder, decoderOn_double hS hB]
  · intro next hnext
    exact ⟨_, _, exec_decode_of_length hnext _, exec_decode_of_length hnext _, rfl⟩

/-- DECODE's outcome is put together from what LOCATE, FLIP and EXTRACT of the fixed word give. -/
theorem decodeWord_eq_of_steps (r : Codeword) (loc : Located) (hloc : locate (syndromeOf r) (blockParityOf r) = loc) :
    decodeWord r = match loc.tag with
      | .clean => .clean (extractData (flipBit r loc.flipEn loc.pos))
      | .corrected => .corrected loc.pos (flipBit r loc.flipEn loc.pos) (extractData (flipBit r loc.flipEn loc.pos))
      | .doubleErrorDetected => .doubleErrorDetected := by
  subst hloc
  obtain ⟨hS, hB⟩ | hB | ⟨hS, hB⟩ := decisionTable_rows r
  · simp only [decodeWord_clean hS hB, hS, hB, locate_even, reduceIte, flipBit_disabled]
  · simp only [decodeWord_odd hB, hB, locate_odd, flipBit_enabled]
  · simp only [decodeWord_double hS hB, hB, locate_even, if_neg hS]

/-- Settles O43: the bench hands each step what the one before gave, as DECODE composes them. -/
theorem stepsOfDecodeComposeToDecode : Obligations.StepsOfDecodeComposeToDecode := by
  intro s r hlen
  refine ⟨_, _, _, _, _, _, exec_decode_of_length hlen s, rfl, rfl, checkFlip_next _ _ _, rfl, rfl,
    bitsOf_ofBits hlen, rfl, rfl, rfl, rfl, rfl, rfl, rfl, rfl, rfl, rfl, rfl, ?_⟩
  rw [State.setResult_callResult, decodeWord_eq_of_steps (ofBits 16 r) _ rfl]
  rfl

end Sys2Proof.Machine
end

section
/-! The levels before any call, and the status codes of settled levels (spec 10_state.md section 7, 30_encoding.md
section 1, 70_reset_and_hazards.md section 1). -/

namespace Sys2Proof.Machine

/-- Settles O45: every output at reset is what its rule gives for an all-zero input. -/
theorem resetIsSettled : Obligations.ResetIsSettled := by
  refine ⟨encoderOn_zero.symm, ?_, ?_⟩ <;> decide

/-- Settles O46. -/
theorem resetReadsClean : Obligations.ResetReadsClean := ⟨rfl, rfl, rfl, rfl⟩

/-- No tag has the code 3 (rule R42). -/
theorem statusCode_ne_three (tag : OutcomeTag) : statusCode tag ≠ 3#2 := by
  cases tag <;> decide

/-- Bit 0 of the code on `status` is the block parity and bit 1 says row 4. -/
theorem decoderOn_status_bits (r : Codeword) :
    (decoderOn r).status.getLsbD 0 = blockParityOf r ∧
      (decoderOn r).status.getLsbD 1 = (syndromeOf r != 0#4 && !blockParityOf r) := by
  obtain ⟨hS, hB⟩ | hB | ⟨hS, hB⟩ := decisionTable_rows r
  · simp [decoderOn_clean hS hB, hS, hB]
  · simp [decoderOn_odd hB, hB]
  · simp [decoderOn_double hS hB, hS, hB]

/-- Settles O47: a settled decoder is `decoderOn` of its input, and a settled locator `locateOn` of its inputs. -/
theorem statusCodesOfASettledDecoder : Obligations.StatusCodesOfASettledDecoder := by
  rintro s ⟨-, hD, -, -, -, -, -, -, hL, -, -⟩
  obtain ⟨h0, h1⟩ := decoderOn_status_bits s.decoder.codewordIn
  rw [hD, hL]
  exact ⟨statusCode_ne_three _, h0, h1, rfl, statusCode_ne_three _⟩

end Sys2Proof.Machine
end

section
/-! INJECT, the channel and the text of a word (spec 20_memory.md section 8, 30_encoding.md section 6). -/

namespace Sys2Proof.Machine

/-! ### Injected flips -/

@[simp] theorem inject_nil (c : Codeword) : inject c [] = c := rfl

/-- Injecting flips XORs the word with the pattern that the same flips make of the all-zero word. -/
theorem inject_eq_channel (c : Codeword) {ps : List Nat} (hps : ∀ p ∈ ps, p < 16) :
    inject c ps = channel c (inject 0#16 ps) := by
  induction ps generalizing c with
  | nil => rw [inject_nil, inject_nil, channel, BitVec.xor_zero]
  | cons p ps ih =>
    obtain ⟨hp, hps⟩ := List.forall_mem_cons.1 hps
    rw [inject_cons c hp, inject_cons 0#16 hp, ih _ hps, ih (0#16 ^^^ _) hps]
    simp only [channel, BitVec.zero_xor, BitVec.xor_assoc]

/-- Distinct flips invert exactly the listed positions. -/
theorem getLsbD_inject (c : Codeword) {ps : List Nat} (hnd : ps.Nodup) (hps : ∀ p ∈ ps, p < 16) (q : Nat) :
    (inject c ps).getLsbD q = if q ∈ ps then !c.getLsbD q else c.getLsbD q := by
  induction ps generalizing c with
  | nil => simp
  | cons p ps ih =>
    obtain ⟨hp, hps⟩ := List.forall_mem_cons.1 hps
    obtain ⟨hmem, hnd⟩ := List.nodup_cons.1 hnd
    rw [inject_cons c hp, ih _ hnd hps, getLsbD_xor_oneHot c hp]
    by_cases h : q = p
    · subst h; simp [hmem]
    · simp [h]

/-- Distinct flips at clear positions each add one to the weight. -/
theorem weight_inject {c : Codeword} {ps : List Nat} (hnd : ps.Nodup) (hps : ∀ p ∈ ps, p < 16)
    (hclear : ∀ p ∈ ps, c.getLsbD p = false) : weight (inject c ps) = weight c + ps.length := by
  induction ps generalizing c with
  | nil => simp
  | cons p ps ih =>
    obtain ⟨hp, hps⟩ := List.forall_mem_cons.1 hps
    obtain ⟨hmem, hnd⟩ := List.nodup_cons.1 hnd
    obtain ⟨hpc, hclear⟩ := List.forall_mem_cons.1 hclear
    have hstill : ∀ q ∈ ps, (c ^^^ (1#16 <<< p)).getLsbD q = false := fun q hq => by
      rw [getLsbD_xor_oneHot c hp, if_neg (ne_of_mem_of_not_mem hq hmem), hclear q hq]
    rw [inject_cons c hp, ih hnd hps hstill, weight_set hp hpc, List.length_cons]
    omega

/-- A list of distinct positions is a pattern of as many flips. -/
theorem weight_inject_zero {ps : List Nat} (hnd : ps.Nodup) (hps : ∀ p ∈ ps, p < 16) :
    weight (inject 0#16 ps) = ps.length := by
  rw [weight_inject hnd hps fun _ _ => BitVec.getLsbD_zero, show weight 0#16 = 0 by decide, Nat.zero_add]

/-- Each injected flip XORs its position into the syndrome. -/
theorem syndromeOf_inject_cons {p : Nat} (hp : p < 16) {ps : List Nat} (hps : ∀ q ∈ ps, q < 16) :
    syndromeOf (inject 0#16 (p :: ps)) = BitVec.ofNat 4 p ^^^ syndromeOf (inject 0#16 ps) := by
  rw [inject_cons _ hp, BitVec.zero_xor, inject_eq_channel _ hps, channel, syndromeOf_xor, (checks_oneHot hp).1]

/-- Settles O53: the pattern is what the flips make of the all-zero word. -/
theorem injectIsTheChannelOfThosePositions : Obligations.InjectIsTheChannelOfThosePositions := by
  intro c ps hnd hps
  refine ⟨inject 0#16 ps, inject_eq_channel c hps, fun p _ => ?_, weight_inject_zero hnd hps⟩
  rw [getLsbD_inject 0#16 hnd hps]
  simp

/-! ### Text -/

theorem parseBits_cons_bitChar (b : Bool) (cs : List Char) :
    parseBits (bitChar b :: cs) = (parseBits cs).map (b :: ·) := by
  cases b <;> simp [parseBits, bitChar]

theorem parseBits_renderBits (bits : List Bool) : parseBits (renderBits bits) = some bits := by
  induction bits with
  | nil => rfl
  | cons b bits ih => rw [renderBits, List.map_cons, parseBits_cons_bitChar, ← renderBits, ih, Option.map_some]

theorem getElem?_renderBits {bits : List Bool} {i : Nat} (hi : i < bits.length) :
    (renderBits bits)[i]? = some (if bits.getD i false then '1' else '0') := by
  rw [renderBits, List.getElem?_map, List.getElem?_eq_getElem hi, Option.map_some, List.getD_eq_getElem _ _ hi,
    bitChar]

theorem length_renderBits (bits : List Bool) : (renderBits bits).length = bits.length := List.length_map _

@[simp] theorem toList_renderWord {n : Nat} (w : BitVec n) : (renderWord w).toList = renderBits (bitsOf w) :=
  String.toList_ofList

/-- A text is read exactly when it is the text of the bits read. -/
theorem renderBits_of_parseBits {text : List Char} {bits : List Bool} (h : parseBits text = some bits) :
    renderBits bits = text := by
  induction text generalizing bits with
  | nil => cases h; rfl
  | cons c cs ih =>
    rw [parseBits] at h
    split at h
    · next hc =>
      obtain ⟨tail, htail, rfl⟩ := Option.map_eq_some_iff.1 h
      rw [← ih htail, hc]; rfl
    · split at h
      · next hc =>
        obtain ⟨tail, htail, rfl⟩ := Option.map_eq_some_iff.1 h
        rw [← ih htail, hc]; rfl
      · cases h

/-- A rendered text has no character but the two. -/
theorem mem_renderBits {c : Char} {bits : List Bool} (h : c ∈ renderBits bits) : c = '0' ∨ c = '1' := by
  obtain ⟨b, -, rfl⟩ := List.mem_map.1 h
  cases b
  · exact .inl rfl
  · exact .inr rfl

/-- Settles O54: reading undoes rendering, and what is read was rendered, so it has no other character. -/
theorem textOfAWordIsReadBack : Obligations.TextOfAWordIsReadBack := by
  refine ⟨fun n w => ⟨?_, fun i hi => ?_, ?_⟩, fun bits => ⟨length_renderBits bits,
    fun _ => getElem?_renderBits, parseBits_renderBits bits⟩, fun _ _ => renderBits_of_parseBits, ?_⟩
  · rw [toList_renderWord, length_renderBits, length_bitsOf]
  · rw [toList_renderWord, getElem?_renderBits (by rwa [length_bitsOf]), getD_bitsOf]
  · rw [toList_renderWord, parseBits_renderBits]
  · rintro text ⟨c, hc, h0, h1⟩
    rw [Option.eq_none_iff_forall_ne_some]
    intro bits hbits
    rw [← renderBits_of_parseBits hbits] at hc
    exact (mem_renderBits hc).elim h0 h1

end Sys2Proof.Machine
end

section
/-! What the error pattern alone decides, and the valid codewords (spec 41_decoder.md section 7, 30_encoding.md
section 4). -/

namespace Sys2Proof.Machine

/-! ### Valid codewords -/

/-- Data bits, syndrome and block parity together determine a word: the XOR of two words that agree in all three is the
codeword of the all-zero data word. -/
theorem eq_of_data_and_checks {a b : Codeword} (hd : extractData a = extractData b)
    (hS : syndromeOf a = syndromeOf b) (hB : blockParityOf a = blockParityOf b) : a = b := by
  have hzero : a ^^^ b = encodeData 0#11 := by
    apply eq_encodeData_of_checks
    · rw [extractData_xor, hd, BitVec.xor_self]
    · rw [syndromeOf_xor, hS, BitVec.xor_self]
    · rw [blockParityOf_xor, hB, Bool.xor_self]
  rw [show encodeData 0#11 = 0#16 from congrArg EncoderBlock.codewordOut encoderOn_zero] at hzero
  exact BitVec.xor_eq_zero_iff.1 hzero

theorem validCodeword_xor {a b : Codeword} (ha : ValidCodeword a) (hb : ValidCodeword b) :
    ValidCodeword (a ^^^ b) := by
  obtain ⟨d, rfl⟩ := ha
  obtain ⟨d', rfl⟩ := hb
  exact ⟨d ^^^ d', encodeData_xor d d'⟩

/-- A valid codeword with a one in it has at least four: their number is even, and two never check to zero. -/
theorem four_le_weight {w : Codeword} (hw : ValidCodeword w) (hne : w ≠ 0#16) : 4 ≤ weight w := by
  obtain ⟨hS, hB⟩ := (validCodeword_iff_checks w).1 hw
  have heven := weight_even_of_blockParityOf_eq_false hB
  have h0 : weight w ≠ 0 := fun h => hne (weight_eq_zero h)
  have h2 : weight w ≠ 2 := by
    intro h
    obtain ⟨p, q, hp, hq, hpq, rfl⟩ := weight_eq_two h
    exact (errorSyndrome_two hp hq hpq).2 ((errorSyndrome_eq _).trans hS)
  omega

/-- Settles O39: both checks are 0 exactly on the valid codewords, and exactly there the outcome is `Clean`. -/
theorem validCodewordsAreThoseThatCheckToZero : Obligations.ValidCodewordsAreThoseThatCheckToZero := by
  refine ⟨fun s w => ⟨_, exec_decode_bitsOf w s, validCodeword_iff_checks w, ?_⟩,
    fun a b ha hb => ⟨validCodeword_xor ha hb, fun hne => four_le_weight (validCodeword_xor ha hb) ?_⟩⟩
  · simp only [setResult_decoded_iff, decodeWord_eq_clean_iff, exists_and_left, exists_eq, and_true]
    exact validCodeword_iff_checks w
  · exact fun h => hne (BitVec.xor_eq_zero_iff.1 h)

/-- The word without data bits that has a given syndrome and block parity: the syndrome on the parity positions. -/
def parityPattern (S : Syndrome) (B : Bool) : Codeword :=
  assemble 0#16 S (B ^^ xorBits (bitsOf S))

theorem checks_parityPattern (S : Syndrome) (B : Bool) : extractData (parityPattern S B) = 0#11 ∧
    syndromeOf (parityPattern S B) = S ∧ blockParityOf (parityPattern S B) = B := by
  revert S B; decide

/-- Settles O37: the cell's word is the data word's codeword with the parity pattern of the cell on it. -/
theorem eachTableCellHoldsOneWordPerDataWord : Obligations.EachTableCellHoldsOneWordPerDataWord := by
  intro s d S B
  obtain ⟨hd, hS, hB⟩ := checks_parityPattern S B
  have hw : extractData (channel (encodeData d) (parityPattern S B)) = d := by
    rw [channel, extractData_xor, extractData_encodeData, hd, BitVec.xor_zero]
  have hc := checks_channel d (parityPattern S B)
  rw [hS, hB] at hc
  refine ⟨channel (encodeData d) (parityPattern S B),
    ⟨_, exec_decode_bitsOf _ s, hw, (decoderOn_syndrome _).trans hc.1, (decoderOn_blockParity _).trans hc.2⟩, ?_⟩
  rintro w' ⟨t, ht, hd', hS', hB'⟩
  cases (exec_decode_bitsOf w' s).symm.trans ht
  exact eq_of_data_and_checks (hd'.trans hw.symm) (((decoderOn_syndrome w').symm.trans hS').trans hc.1.symm)
    (((decoderOn_blockParity w').symm.trans hB').trans hc.2.symm)

/-! ### The checks of a received word -/

/-- Settles O36: both checks of a received word are those of the pattern, which are the fold and the weight modulo 2. -/
theorem syndromeAndParityDependOnTheErrorAlone : Obligations.SyndromeAndParityDependOnTheErrorAlone := by
  intro s c e hc
  have hS : (decoderOn (channel c e)).syndrome = syndromeOf e := by
    rw [decoderOn_syndrome, syndromeOf_channel hc, errorSyndrome_eq]
  have hB : (decoderOn (channel c e)).blockParity = blockParityOf e := by
    rw [decoderOn_blockParity, blockParityOf_channel hc, errorParity_eq]
  exact ⟨_, _, exec_decode_bitsOf _ s, exec_decode_bitsOf _ s, hS.trans (decoderOn_syndrome e).symm,
    hB.trans (decoderOn_blockParity e).symm, hS.trans (syndromeOf_eq_fold e).symm, hB.trans (blockParityOf_eq e)⟩

end Sys2Proof.Machine
end

section
/-! What the two operations guarantee together, by the number of flips between them (spec 41_decoder.md section 7,
70_reset_and_hazards.md section 3). -/

namespace Sys2Proof.Machine

/-! ### Reported data -/

/-- Data reported as valid are the data bits of the reported codeword, which checks to zero, and are what the outcome
carries. -/
theorem decoderOn_dataValid {r : Codeword} (hv : (decoderOn r).dataValid = true) :
    ValidCodeword (decoderOn r).codewordCorrected ∧
      (decoderOn r).dataOut = extractData (decoderOn r).codewordCorrected ∧
      (decodeWord r = .clean (decoderOn r).dataOut ∨
        decodeWord r = .corrected (syndromeOf r) (decoderOn r).codewordCorrected (decoderOn r).dataOut) := by
  obtain ⟨hS, hB⟩ | hB | ⟨hS, hB⟩ := decisionTable_rows r
  · rw [decoderOn_clean hS hB]
    exact ⟨(validCodeword_iff_checks r).2 ⟨hS, hB⟩, rfl, .inl (decodeWord_clean hS hB)⟩
  · rw [decoderOn_odd hB]
    exact ⟨(validCodeword_iff_checks _).2 (corrected_checks hB), rfl, .inr (decodeWord_odd hB)⟩
  · rw [decoderOn_double hS hB] at hv
    cases hv

/-- Settles O38: the reported codeword checks to zero, so it is the ENCODE of its own data bits. -/
theorem reportedDataEncodesToTheReportedCodeword : Obligations.ReportedDataEncodesToTheReportedCodeword := by
  intro s r hlen
  refine ⟨_, exec_decode_of_length hlen s, fun hv => ?_⟩
  obtain ⟨hw, hdata, -⟩ := decoderOn_dataValid hv
  obtain ⟨hS, hB⟩ := (validCodeword_iff_checks _).1 hw
  refine ⟨hS, hB, _, exec_encode_of_length (length_bitsOf _) _, ?_⟩
  simp only [State.setResult_encoder, State.setEncoder_encoder, encoderOn_codewordOut, ofBits_bitsOf,
    State.setResult_decoder, State.setDecoder_decoder, hdata]
  exact encodeData_extractData hS hB

/-- A pattern that is not all zero gives another word. -/
theorem channel_ne {c e : Codeword} (he : e ≠ 0#16) : channel c e ≠ c := fun h =>
  he ((BitVec.xor_right_inj c).1 (h.trans BitVec.xor_zero.symm))

theorem oneHot_ne_zero (p : Position) : 1#16 <<< p.toNat ≠ 0#16 := by
  revert p; decide

/-- A one-hot word at a parity position has no data bit. -/
theorem extractData_oneHot_parity (p : Position) (hp : p.toNat ∈ [0, 1, 2, 4, 8]) :
    extractData (1#16 <<< p.toNat) = 0#11 := by
  revert p; decide

/-- Settles O40: the inverted position is the syndrome, whose one-hot word is not 0 and has no data bit. -/
theorem correctionAtAParityPositionKeepsTheData : Obligations.CorrectionAtAParityPositionKeepsTheData := by
  intro s r hlen
  refine ⟨_, exec_decode_of_length hlen s, ?_⟩
  simp only [State.setResult_decoder, State.setDecoder_decoder]
  obtain ⟨hS, hB⟩ | hB | ⟨hS, hB⟩ := decisionTable_rows (ofBits 16 r)
  · rw [decoderOn_clean hS hB]; intro h; cases h
  · rw [decoderOn_odd hB]
    rintro - hpos
    constructor
    · simp only [extractData_xor, extractData_oneHot_parity _ hpos, BitVec.xor_zero, bitsOf_extractData,
        getD_eq_getLsbD_ofBits hlen]
    · exact channel_ne (oneHot_ne_zero _)
  · rw [decoderOn_double hS hB]; intro h; cases h

/-! ### No flip, one flip, two flips -/

theorem inject_one (c : Codeword) {p : Nat} (hp : p < 16) : inject c [p] = channel c (1#16 <<< p) := by
  rw [inject_cons c hp, inject_nil, channel]

theorem inject_two (c : Codeword) {p q : Nat} (hp : p < 16) (hq : q < 16) :
    inject c [p, q] = channel c ((1#16 <<< p) ^^^ (1#16 <<< q)) := by
  rw [inject_cons c hp, inject_one _ hq, channel, channel, BitVec.xor_assoc]

/-- The block parity of a received word is the number of flips modulo 2. -/
theorem blockParityOf_channel_eq_decide {c : Codeword} (hc : ValidCodeword c) (e : Codeword) :
    blockParityOf (channel c e) = decide (weight e % 2 = 1) := by
  rw [blockParityOf_channel hc, errorParity_eq, blockParityOf_eq]

theorem decodeWord_channel_zero (d : DataWord) : decodeWord (channel (encodeData d) 0#16) = .clean d := by
  rw [channel, BitVec.xor_zero, decodeWord_encodeData]

/-- One flip: the checks name the position, and inverting it again gives the sent word. -/
theorem channel_oneHot (d : DataWord) {p : Nat} (hp : p < 16) :
    syndromeOf (channel (encodeData d) (1#16 <<< p)) = BitVec.ofNat 4 p ∧
      blockParityOf (channel (encodeData d) (1#16 <<< p)) = true ∧
      channel (encodeData d) (1#16 <<< p) ^^^ (1#16 <<< (BitVec.ofNat 4 p).toNat) = encodeData d := by
  obtain ⟨hS, hB⟩ := checks_channel d (1#16 <<< p)
  refine ⟨hS.trans (checks_oneHot hp).1, hB.trans (checks_oneHot hp).2, ?_⟩
  rw [BitVec.toNat_ofNat, Nat.mod_eq_of_lt hp, channel, BitVec.xor_assoc, BitVec.xor_self, BitVec.xor_zero]

theorem decodeWord_channel_one (d : DataWord) {p : Nat} (hp : p < 16) :
    decodeWord (channel (encodeData d) (1#16 <<< p)) = .corrected (BitVec.ofNat 4 p) (encodeData d) d := by
  obtain ⟨hS, hB, hfix⟩ := channel_oneHot d hp
  rw [decodeWord_odd hB, hS, hfix, extractData_encodeData]

/-- Two distinct flips: row 4, at the XOR of the positions. -/
theorem channel_two (d : DataWord) {p q : Nat} (hp : p < 16) (hq : q < 16) (hne : p ≠ q) :
    (syndromeOf (channel (encodeData d) ((1#16 <<< p) ^^^ (1#16 <<< q)))).toNat = p ^^^ q ∧
      syndromeOf (channel (encodeData d) ((1#16 <<< p) ^^^ (1#16 <<< q))) ≠ 0#4 ∧
      blockParityOf (channel (encodeData d) ((1#16 <<< p) ^^^ (1#16 <<< q))) = false := by
  obtain ⟨hS, hB⟩ := checks_channel d ((1#16 <<< p) ^^^ (1#16 <<< q))
  rw [hS, hB, ← errorSyndrome_eq, blockParityOf_xor, (checks_oneHot hp).2, (checks_oneHot hq).2]
  exact ⟨(errorSyndrome_two hp hq hne).1, (errorSyndrome_two hp hq hne).2, rfl⟩

theorem decodeWord_channel_two (d : DataWord) {e : Codeword} (he : weight e = 2) :
    decodeWord (channel (encodeData d) e) = .doubleErrorDetected := by
  obtain ⟨p, q, hp, hq, hne, rfl⟩ := weight_eq_two he
  obtain ⟨-, hS, hB⟩ := channel_two d hp hq hne
  exact decodeWord_double hS hB

/-- Settles O31: the flipped position is the syndrome. -/
theorem singleErrorIsCorrected : Obligations.SingleErrorIsCorrected := by
  intro s d p hlen hp
  refine ⟨_, _, exec_encode_of_length hlen s, exec_decode_bitsOf _ _, ofBits 11 d, bitsOf_ofBits hlen, ?_⟩
  obtain ⟨hS, hB, hfix⟩ := channel_oneHot (ofBits 11 d) hp
  simp only [State.setResult_encoder, State.setEncoder_encoder, encoderOn_codewordOut, State.setResult_decoder,
    State.setDecoder_decoder, setResult_decoded_iff, inject_one _ hp]
  refine ⟨decodeWord_channel_one _ hp, ?_⟩
  rw [decoderOn_odd hB, hS, hfix, extractData_encodeData, BitVec.toNat_ofNat]
  exact ⟨Nat.mod_eq_of_lt hp, rfl, rfl, rfl⟩

/-- Settles O32: two distinct flips leave a syndrome that is not 0 with block parity 0. -/
theorem doubleErrorIsDetected : Obligations.DoubleErrorIsDetected := by
  refine ⟨?_, by decide⟩
  intro s d p q hlen hp hq hne
  refine ⟨_, _, exec_encode_of_length hlen s, exec_decode_bitsOf _ _, ?_⟩
  obtain ⟨hx, hS, hB⟩ := channel_two (ofBits 11 d) hp hq hne
  simp only [State.setResult_encoder, State.setEncoder_encoder, encoderOn_codewordOut, State.setResult_decoder,
    State.setDecoder_decoder, setResult_decoded_iff, inject_two _ hp hq, decoderOn_syndrome,
    decoderOn_blockParity]
  refine ⟨decodeWord_double hS hB, hx, ?_, ?_, hS, hB⟩
  · rintro rfl; rw [hx, Nat.xor_zero]
  · rintro rfl; rw [hx, Nat.zero_xor]

/-- With at most two flips, the data of an outcome are the data sent. -/
theorem decodeWord_channel_data {d w : DataWord} {e : Codeword} (he : weight e ≤ 2)
    (h : decodeWord (channel (encodeData d) e) = .clean w ∨
      ∃ p c, decodeWord (channel (encodeData d) e) = .corrected p c w) : w = d := by
  obtain h0 | h1 | h2 : weight e = 0 ∨ weight e = 1 ∨ weight e = 2 := by omega
  · rw [weight_eq_zero h0, decodeWord_channel_zero] at h
    obtain h | ⟨p, c, h⟩ := h <;> cases h
    rfl
  · obtain ⟨p, hp, rfl⟩ := weight_eq_one h1
    rw [decodeWord_channel_one d hp] at h
    obtain h | ⟨p, c, h⟩ := h <;> cases h
    rfl
  · rw [decodeWord_channel_two d h2] at h
    obtain h | ⟨p, c, h⟩ := h <;> cases h

/-- Settles O33: `Corrected` is block parity 1, which is an odd number of flips; and up to two flips by their number. -/
theorem noWrongCorrectionAndNoSilentCorruption : Obligations.NoWrongCorrectionAndNoSilentCorruption := by
  constructor
  · intro s r hlen
    refine ⟨_, exec_decode_of_length hlen s, ?_⟩
    rintro ⟨p, c, w, h⟩
    rw [setResult_decoded_iff, decodeWord_eq_corrected_iff] at h
    exact (decoderOn_blockParity _).trans h.1
  · intro s d e hlen
    refine ⟨_, _, exec_encode_of_length hlen s, exec_decode_bitsOf _ _, ?_⟩
    simp only [State.setResult_encoder, State.setEncoder_encoder, encoderOn_codewordOut, State.setResult_decoder,
      State.setDecoder_decoder, setResult_decoded_iff]
    constructor
    · rintro ⟨p, c, w, h⟩
      have hB := ((decodeWord_eq_corrected_iff _ _ _ _).1 h).1
      rwa [blockParityOf_channel_eq_decide ⟨_, rfl⟩, decide_eq_true_iff] at hB
    · intro he
      have hclean : ∀ w, decodeWord (channel (encodeData (ofBits 11 d)) e) = .clean w → bitsOf w = d := by
        intro w h
        rw [decodeWord_channel_data he (.inl h), bitsOf_ofBits hlen]
      have hcorrected : ∀ p c w, decodeWord (channel (encodeData (ofBits 11 d)) e) = .corrected p c w →
          bitsOf w = d := by
        intro p c w h
        rw [decodeWord_channel_data he (.inr ⟨p, c, h⟩), bitsOf_ofBits hlen]
      refine ⟨hclean, hcorrected, fun hv => ?_⟩
      obtain ⟨-, -, h | h⟩ := decoderOn_dataValid hv
      · exact hclean _ h
      · exact hcorrected _ _ _ h

/-! ### Three flips and four flips -/

/-- A valid codeword other than the one sent carries other data. -/
theorem bitsOf_extractData_ne {w : Codeword} {d : List Bool} (hw : ValidCodeword w)
    (hne : w ≠ encodeData (ofBits 11 d)) : bitsOf (extractData w) ≠ d := by
  rintro rfl
  obtain ⟨hS, hB⟩ := (validCodeword_iff_checks w).1 hw
  exact hne (eq_encodeData_of_checks (ofBits_bitsOf _).symm hS hB)

/-- The XOR of three distinct positions is a position and none of them. -/
theorem xor_three {p q r : Nat} (hp : p < 16) (hq : q < 16) (hr : r < 16) (hpq : p ≠ q) (hpr : p ≠ r)
    (hqr : q ≠ r) : p ^^^ q ^^^ r < 16 ∧ p ^^^ q ^^^ r ∉ [p, q, r] := by
  refine ⟨Nat.xor_lt_two_pow (n := 4) (Nat.xor_lt_two_pow (n := 4) hp hq) hr, ?_⟩
  have hne : ∀ {a b c : Nat}, b ≠ c → a ^^^ b ^^^ c ≠ a := fun {a b c} hbc h =>
    hbc (Nat.xor_eq_zero_iff.1 ((Nat.xor_right_inj (x := a)).1 (by rw [← Nat.xor_assoc, h, Nat.xor_zero])))
  simp only [List.mem_cons, List.not_mem_nil, or_false, not_or]
  refine ⟨hne hqr, ?_, ?_⟩
  · rw [Nat.xor_comm p q]; exact hne hpr
  · rw [Nat.xor_comm (p ^^^ q), ← Nat.xor_assoc]; exact hne hpq

/-- The pattern of three distinct flips: its weight and its syndrome. -/
theorem inject_three {p q r : Nat} (hp : p < 16) (hq : q < 16) (hr : r < 16) (hnd : [p, q, r].Nodup) :
    weight (inject 0#16 [p, q, r]) = 3 ∧ (syndromeOf (inject 0#16 [p, q, r])).toNat = p ^^^ q ^^^ r := by
  have hps : ∀ x ∈ [p, q, r], x < 16 := by simp [hp, hq, hr]
  refine ⟨weight_inject_zero hnd hps, ?_⟩
  rw [syndromeOf_inject_cons hp (by simp [hq, hr]), syndromeOf_inject_cons hq (by simp [hr]),
    syndromeOf_inject_cons hr (by simp), inject_nil, show syndromeOf 0#16 = 0#4 by decide, BitVec.xor_zero,
    ← BitVec.xor_assoc]
  simp [Nat.mod_eq_of_lt, hp, hq, hr]

/-- Inverting one more position of a received word takes it one flip further from the word sent. -/
theorem weight_flip_channel_xor (c : Codeword) {e : Codeword} {x : Nat} (hx : x < 16) (hclear : e.getLsbD x = false) :
    weight (channel c e ^^^ (1#16 <<< x) ^^^ c) = weight e + 1 := by
  rw [BitVec.xor_comm, channel, BitVec.xor_assoc, ← BitVec.xor_assoc, BitVec.xor_self, BitVec.zero_xor,
    weight_set hx hclear]

/-- Settles O34: an odd pattern is corrected at its syndrome, a fourth position, and the result is a valid codeword four
flips away. -/
theorem tripleErrorIsMiscorrected : Obligations.TripleErrorIsMiscorrected := by
  intro s d p q r hlen hp hq hr hpq hpr hqr
  have hnd : [p, q, r].Nodup := by simp [hpq, hpr, hqr]
  have hps : ∀ x ∈ [p, q, r], x < 16 := by simp [hp, hq, hr]
  obtain ⟨hx, hmem⟩ := xor_three hp hq hr hpq hpr hqr
  obtain ⟨hw3, hSe⟩ := inject_three hp hq hr hnd
  refine ⟨_, _, exec_encode_of_length hlen s, exec_decode_bitsOf _ _, ?_⟩
  simp only [State.setResult_encoder, State.setEncoder_encoder, encoderOn_codewordOut, State.setResult_decoder,
    State.setDecoder_decoder]
  rw [inject_eq_channel _ hps]
  have hS := (checks_channel (ofBits 11 d) (inject 0#16 [p, q, r])).1
  have hB := blockParityOf_channel_eq_decide ⟨ofBits 11 d, rfl⟩ (inject 0#16 [p, q, r])
  rw [hw3] at hB
  have hvalid := (validCodeword_iff_checks _).2 (corrected_checks hB)
  rw [decoderOn_odd hB]
  rw [hS, hSe] at hvalid ⊢
  have hclear : (inject 0#16 [p, q, r]).getLsbD (p ^^^ q ^^^ r) = false := by
    rw [getLsbD_inject _ hnd hps, if_neg hmem, BitVec.getLsbD_zero]
  have hfour := weight_flip_channel_xor (encodeData (ofBits 11 d)) hx hclear
  rw [hw3] at hfour
  refine ⟨rfl, rfl, rfl, hmem, bitsOf_extractData_ne hvalid ?_, hvalid, hfour⟩
  intro h
  rw [h, BitVec.xor_self] at hfour
  exact absurd hfour (by decide)

/-- Settles O35: four flips leave block parity 0, so the syndrome of the pattern decides between `Clean` and a double
error; and the clean word is another codeword. -/
theorem quadrupleErrorIsCleanOrDetected : Obligations.QuadrupleErrorIsCleanOrDetected := by
  intro s d e hlen he
  refine ⟨_, _, exec_encode_of_length hlen s, exec_decode_bitsOf _ _, ?_⟩
  simp only [State.setResult_encoder, State.setEncoder_encoder, encoderOn_codewordOut, setResult_decoded_iff]
  have hB := blockParityOf_channel_eq_decide ⟨ofBits 11 d, rfl⟩ e
  rw [he] at hB
  rw [← (checks_channel (ofBits 11 d) e).1]
  refine ⟨fun h0 => ⟨_, decodeWord_clean h0 hB, ?_⟩, fun hne => decodeWord_double hne hB⟩
  apply bitsOf_extractData_ne ((validCodeword_iff_checks _).2 ⟨h0, hB⟩)
  apply channel_ne
  rintro rfl
  exact absurd he (by decide)

/-! ### The link -/

/-- A run goes on from the state that its first step reaches. -/
theorem run_succ {s t : State} (h : step s = .next t) (k : Nat) : core.run (k + 1) s = core.run k t := by
  have h' : core.step s = .next t := h
  simp only [Host.Core.run, h']

/-- Two requests, an ENCODE and a relay, put DECODE of the channel's word on the decoder. -/
theorem run_link {s : State} {d : List Bool} {e : Codeword} {rest : List Request} (hlen : d.length = 11)
    (hp : s.pending = .call .encode d :: .relay e :: rest) : ∃ u : State, core.run 2 s = .next u ∧
      u.pending = rest ∧ u.bench = s.bench ∧ u.encoder.codewordOut = encodeData (ofBits 11 d) ∧
      u.callResult = some (.decoded (decodeWord (channel (encodeData (ofBits 11 d)) e))) := by
  have hfirst := (step_of_decode hp (decode_sequence d).1).trans (exec_encode_of_length hlen _)
  exact ⟨_, (run_succ hfirst 1).trans (run_succ ((step_relay rfl).trans (exec_decode_bitsOf _ _)) 0),
    rfl, rfl, rfl, rfl⟩

/-- Settles O41: the run of the two requests, and the outcome by the number of flips. -/
theorem linkDeliversOrReportsUpToTwoFlips : Obligations.LinkDeliversOrReportsUpToTwoFlips := by
  intro s d e rest hlen _ hp
  obtain ⟨u, hrun, hpending, hbench, hout, hresult⟩ := run_link hlen hp
  refine ⟨u, hrun, hpending, hbench, ?_, ?_, ?_⟩
  · intro h0
    rw [weight_eq_zero h0, decodeWord_channel_zero] at hresult
    exact ⟨_, bitsOf_ofBits hlen, hresult⟩
  · intro h1
    obtain ⟨p, hp16, rfl⟩ := weight_eq_one h1
    rw [decodeWord_channel_one _ hp16, ← hout] at hresult
    exact ⟨p, _, rfl, hp16, bitsOf_ofBits hlen, hresult⟩
  · intro h2
    rw [hresult, decodeWord_channel_two _ h2]

/-! ### The rows of the decision table by weight -/

theorem errorSyndrome_one {p : Nat} (hp : p < 16) : (errorSyndrome (1#16 <<< p)).toNat = p := by
  rw [errorSyndrome_eq, (checks_oneHot hp).1, BitVec.toNat_ofNat, Nat.mod_eq_of_lt hp]

/-- A pattern of even weight is itself a valid codeword exactly when the received word has syndrome 0. -/
theorem validCodeword_iff_syndromeOf_channel {c e : Codeword} (hc : ValidCodeword c) (heven : weight e % 2 = 0) :
    ValidCodeword e ↔ syndromeOf (channel c e) = 0#4 := by
  rw [validCodeword_iff_checks, syndromeOf_channel hc, errorSyndrome_eq, blockParityOf_eq, heven]
  exact and_iff_left rfl

/-- Settles O55: the checks are those of the pattern, and its weight decides the row. -/
theorem errorWeightSelectsTheTableRow : Obligations.ErrorWeightSelectsTheTableRow := by
  intro s c e hc
  refine ⟨_, exec_decode_bitsOf _ s, ?_⟩
  have hS : syndromeOf (channel c e) = errorSyndrome e := syndromeOf_channel hc e
  have hB := blockParityOf_channel_eq_decide hc e
  simp only [State.setResult_decoder, State.setDecoder_decoder, decoderOn_syndrome, decoderOn_blockParity]
  refine ⟨hS, blockParityOf_channel hc e, locate_channel hc e, ?_, ?_, ?_, ?_, ?_⟩
  · intro h0
    rw [h0] at hB
    have hzero : errorSyndrome e = 0#4 := by rw [weight_eq_zero h0]; rfl
    rw [hzero] at hS
    exact ⟨hS, hB, by rw [decoderOn_clean hS hB]⟩
  · intro h1
    rw [h1] at hB
    obtain ⟨p, hp, rfl⟩ := weight_eq_one h1
    rw [decoderOn_odd hB, hS]
    exact ⟨p, hp, rfl, errorSyndrome_one hp, hB, rfl, errorSyndrome_one hp⟩
  · intro h2
    rw [h2] at hB
    obtain ⟨p, q, hp, hq, hne, rfl⟩ := weight_eq_two h2
    obtain ⟨hx, hS0⟩ := errorSyndrome_two hp hq hne
    rw [← hS] at hx hS0
    exact ⟨p, q, hp, hq, hne, rfl, hx, hS0, hB, by rw [decoderOn_double hS0 hB]⟩
  · intro hodd
    rw [hodd] at hB
    rw [decoderOn_odd hB]
    exact ⟨hB, rfl, rfl⟩
  · intro heven _
    rw [heven] at hB
    rw [validCodeword_iff_syndromeOf_channel hc heven]
    exact ⟨hB, fun h0 => ⟨h0, by rw [decoderOn_clean h0 hB]⟩, fun hne => ⟨hne, by rw [decoderOn_double hne hB]⟩⟩

/-- Translating a position by a syndrome gives a position. -/
theorem translate_lt {p : Nat} (hp : p < 16) (T : Syndrome) : p ^^^ T.toNat < 16 :=
  Nat.xor_lt_two_pow (n := 4) hp T.isLt

theorem forall_mem_translate {ps : List Nat} (hps : ∀ p ∈ ps, p < 16) (T : Syndrome) :
    ∀ q ∈ ps.map (· ^^^ T.toNat), q < 16 := by
  intro q hq
  obtain ⟨p, hp, rfl⟩ := List.mem_map.1 hq
  exact translate_lt (hps p hp) T

/-- Translating an odd number of flips by `T` translates their syndrome by `T`. -/
theorem syndromeOf_inject_translate (T : Syndrome) {ps : List Nat} (hps : ∀ p ∈ ps, p < 16) :
    syndromeOf (inject 0#16 (ps.map (· ^^^ T.toNat))) =
      syndromeOf (inject 0#16 ps) ^^^ (if ps.length % 2 = 1 then T else 0#4) := by
  induction ps with
  | nil => simp
  | cons p ps ih =>
    obtain ⟨hp, hps⟩ := List.forall_mem_cons.1 hps
    have hxor : BitVec.ofNat 4 (p ^^^ T.toNat) = BitVec.ofNat 4 p ^^^ T := by
      rw [BitVec.ofNat_xor, BitVec.ofNat_toNat, BitVec.setWidth_eq]
    have hodd : (if (p :: ps).length % 2 = 1 then T else 0#4) = T ^^^ (if ps.length % 2 = 1 then T else 0#4) := by
      rcases Nat.mod_two_eq_zero_or_one ps.length with h | h <;> simp [h, Nat.add_mod]
    rw [List.map_cons, syndromeOf_inject_cons (translate_lt hp T) (forall_mem_translate hps T), ih hps, hxor,
      syndromeOf_inject_cons hp hps, hodd]
    ac_rfl

/-- Every syndrome is that of a pattern of `k` flips, for odd `k`: the first `k` positions, translated. -/
theorem exists_odd_pattern (S : Syndrome) {k : Nat} (hk : k ≤ 16) (hodd : k % 2 = 1) :
    ∃ e : Codeword, weight e = k ∧ syndromeOf e = S := by
  have hps : ∀ p ∈ List.range k, p < 16 := fun p hp => (List.mem_range.1 hp).trans_le hk
  obtain ⟨T, hT⟩ : ∃ T, syndromeOf (inject 0#16 (List.range k)) ^^^ T = S :=
    ⟨syndromeOf (inject 0#16 (List.range k)) ^^^ S, by rw [← BitVec.xor_assoc, BitVec.xor_self, BitVec.zero_xor]⟩
  refine ⟨inject 0#16 ((List.range k).map (· ^^^ T.toNat)), ?_, ?_⟩
  · rw [weight_inject_zero (List.nodup_range.map Nat.xor_left_injective) (forall_mem_translate hps T),
      List.length_map, List.length_range]
  · rw [syndromeOf_inject_translate T hps, List.length_range, if_pos hodd, hT]

/-- Settles O56. -/
theorem oddErrorsReachEverySyndrome : Obligations.OddErrorsReachEverySyndrome := by
  intro S k _ hk hodd
  obtain ⟨e, he, hSe⟩ := exists_odd_pattern S (k := k) (by omega) hodd
  refine ⟨e, he, fun s c hc => ⟨_, exec_decode_bitsOf _ s, ?_⟩⟩
  have hS : syndromeOf (channel c e) = S := by rw [syndromeOf_channel hc, errorSyndrome_eq, hSe]
  have hB := blockParityOf_channel_eq_decide hc e
  rw [he, hodd] at hB
  simp only [State.setResult_decoder, State.setDecoder_decoder, decoderOn_odd hB, hS, and_self]

end Sys2Proof.Machine
end
